-- ==== Sys2Proof/Word.lean ====
section
/-! DEFINITION. The words, names and plain data types of the block `address_decomposer`:
the input word, the output field, the levels, the result tuple, the VA64 format, the two kinds of
unit, and what a harness can offer that is not yet an input. Types only; what is computed on them
stands in Decode.lean and under Machine/. -/

namespace Sys2Proof

/-- The value `a` on port `vaddr[63:0]`: a 64-bit unsigned number, bit `i` of weight `2^i`
(10_state.md R22, 00_scope.md R5 and R6). -/
abbrev VirtualAddress := BitVec 64

/-- One page-table index: the 9-bit unsigned value of one output port (10_state.md R23). -/
abbrev Index := BitVec 9

/-- The four page-table levels, outermost first (00_scope.md section 7, 41 R73). There is no
constructor for another level: "No instance exists for any other level" (41 R79). -/
inductive Level where
  | l4  -- the root table, outermost
  | l3
  | l2
  | l1  -- the leaf table, innermost
  deriving DecidableEq, Repr

/-- The result of `compute_indices`, the four fields in the fixed order (L4, L3, L2, L1)
(30_encoding.md R44, 00_scope.md R9). -/
structure IndexTuple where
  l4 : Index
  l3 : Index
  l2 : Index
  l1 : Index
  deriving DecidableEq, Repr

/-- Input format VA64: the six fields of the 64-bit word, most significant first
(30_encoding.md R42). -/
structure VA64 where
  high   : BitVec 16  -- bits 63:48, ignored
  l4     : Index      -- bits 47:39
  l3     : Index      -- bits 38:30
  l2     : Index      -- bits 29:21
  l1     : Index      -- bits 20:12
  offset : BitVec 12  -- bits 11:0, ignored
  deriving DecidableEq, Repr

/-- The two kinds of unit of the operation table (columns "unit" and "level" of
opcode_table.json): the whole block, and one `page_table_index_extractor` whose level is fixed when
it is instantiated (41 R73). A unit is a part of the design, not a signal: "The level is a constant
of the instance, not a signal". -/
inductive HwUnit where
  | addressDecomposer
  | pageTableIndexExtractor (level : Level)
  deriving DecidableEq, Repr

/-- What one wire of a four-state simulation carries. Only `low` and `high` are values of the
model; `unknown` (X) and `undriven` (Z) have no meaning in it (10_state.md R26, D12). -/
inductive Wire where
  | low
  | high
  | unknown
  | undriven
  deriving DecidableEq, Repr

/-- A call as a software harness writes it: `compute_indices(v)` (30_encoding.md R52) or
`pt_index(n, v)` for a level number `n` (41 R73; `pt_index_l1(v)` is `pt_index(1, v)`, 30 R53).
The numbers are raw: whether they are an input of the block is what the decoder decides. -/
inductive Call where
  | computeIndices (v : Int)
  | ptIndex (n : Nat) (v : Int)
  deriving DecidableEq, Repr

/-- Why something offered at the host interface is no input of the block. Each reason is a
`refuse` of 93_implementation_defined.md section 1; refusing is safe. -/
inductive Reject where
  /-- A bundle of wires that is not 64 wide (30 R54, D3). -/
  | wrongWidth (n : Nat)
  /-- Wire `bit` is unknown or undriven (10 R26, 70 R101, D12). -/
  | notDriven (bit : Nat)
  /-- A negative number (00 R6, D13). -/
  | negative
  /-- A number that does not fit in 64 bits (U7). -/
  | doesNotFit
  /-- A level outside 1 to 4 (41 R79, D14). -/
  | noSuchLevel (n : Nat)
  deriving DecidableEq, Repr

end Sys2Proof
end

