-- ==== Sys2Proof/Syntax.lean ====
section
/-! DEFINITION. The operations of the block: one constructor per row of spec/opcode_table.json
(30_encoding.md R48). -/

namespace Sys2Proof

/-- An evaluation: the operation and its one operand, the 64-bit word on `vaddr` ("There is no
immediate operand and no operand other than `a`", 30_encoding.md R43). Written `compute_indices(a)`,
`pt_index_l4(a)` and so on (R52, R53). -/
inductive Instr where
  /-- Row 1, `compute_indices`: the operation of the whole block (40 R56). -/
  | computeIndices (a : VirtualAddress)
  /-- Row 2, `pt_index_l4`: the level-4 instance (41 R78). -/
  | ptIndexL4 (a : VirtualAddress)
  /-- Row 3, `pt_index_l3`: the level-3 instance (41 R77). -/
  | ptIndexL3 (a : VirtualAddress)
  /-- Row 4, `pt_index_l2`: the level-2 instance (41 R76). -/
  | ptIndexL2 (a : VirtualAddress)
  /-- Row 5, `pt_index_l1`: the level-1 instance (41 R75). -/
  | ptIndexL1 (a : VirtualAddress)
  deriving DecidableEq, Repr

end Sys2Proof
end

