-- ==== Sys2Proof/Machine/Flags.lean ====
section
/-! DEFINITION. Flags, condition codes and predicates: "There are none" (10_state.md R18). The
type of flags has no constructor, and there is no flag computation. -/

namespace Sys2Proof.Machine

/-- The flags of the block: "No carry, zero, overflow or error flag exists" (10_state.md R18). -/
inductive Flag where
  deriving DecidableEq, Repr

/-- The flags an operation writes: none, for each of the five ("Flags written. None", 40 R56,
41 R75 to R78). -/
def flagsWritten : Instr → List Flag
  | .computeIndices _ => []
  | .ptIndexL4 _ => []
  | .ptIndexL3 _ => []
  | .ptIndexL2 _ => []
  | .ptIndexL1 _ => []

end Sys2Proof.Machine
end

