-- ==== Sys2Proof/Config.lean ====
section
/-! DEFINITION. What an implementation fixes: the width of the address and the two parameters the
spec leaves OPEN. The constants that the source itself fixes (four levels, 9 bits, the shifts and
the mask, 00_scope.md R4) are no parameters; they stand in Machine/Operands.lean. -/

namespace Sys2Proof.Config

/-- `VA_WIDTH`, the width of the address port: 64 for this hardware (00_scope.md section 4, D3).
The field extraction itself is written for every width (30_encoding.md R55). -/
abbrev vaWidth : Nat := 64

/-- The values `HOST_BYTE_ORDER` may take. DESIGN CHOICE (log 16): the spec leaves the order of assembly
wholly to the surrounding system and names no set of orders (20_memory.md R29, D9, N6); the model admits
little-endian and big-endian only. -/
inductive ByteOrder where
  | littleEndian
  | bigEndian
  deriving DecidableEq, Repr, Inhabited

/-- `HOST_BYTE_ORDER`: OPEN, "read by no rule" (20_memory.md R29, D9). No definition of the model
reads it. -/
opaque hostByteOrder : ByteOrder

/-- `T_PD`, the propagation delay of a realisation: OPEN, "enters no rule" (70 R105, D7). That it is
a natural number is a DESIGN CHOICE (log 16). No definition of the model reads it. -/
opaque propagationDelay : Nat

end Sys2Proof.Config
end

