-- ==== Sys2Proof/WellFormed.lean ====
section
/-! DEFINITION. What is an input of the block and what is not. An instruction is always well
formed: "No input word is illegal and none is reserved" (30_encoding.md R49). The checks stand on
what a harness offers: a bundle of wires, or a call with raw numbers. -/

namespace Sys2Proof

/-- Every operation on every word is well formed (30_encoding.md R49, R50; 20_memory.md R30: no
alignment, no canonical form is required). -/
def Instr.wellFormed : Instr → Bool
  | .computeIndices _ => true
  | .ptIndexL4 _ => true
  | .ptIndexL3 _ => true
  | .ptIndexL2 _ => true
  | .ptIndexL1 _ => true

/-- The wire carries a defined binary value (10_state.md R26). -/
def Wire.isDriven : Wire → Bool
  | .low => true
  | .high => true
  | .unknown => false
  | .undriven => false

/-- A bundle of wires is an input word when it is 64 wide (30_encoding.md R54) and every wire is
driven with a defined value (70 R101). -/
def wiresWellFormed (ws : List Wire) : Bool :=
  ws.length == Config.vaWidth && ws.all Wire.isDriven

/-- An integer is an address when it is not negative (D13) and fits in `VA_WIDTH` bits (U7). -/
def addressWellFormed (v : Int) : Bool :=
  decide (0 ≤ v) && decide (v < 2 ^ Config.vaWidth)

/-- A call is well formed when its number is an address and, for `pt_index`, its level is one of
the four (41 R79, D14). -/
def Call.wellFormed : Call → Bool
  | .computeIndices v => addressWellFormed v
  | .ptIndex n v => decide (1 ≤ n) && decide (n ≤ 4) && addressWellFormed v

end Sys2Proof
end

