-- ==== Sys2Proof/Decode.lean ====
section
/-! DEFINITION. From words, wires and calls to operations, and back. The word is the operand: no
bit of it selects the operation (30_encoding.md R47), the unit it is presented to does (R48). Raw
wires and raw numbers are rejected by name where they are no input. -/

namespace Sys2Proof

/-! ## The VA64 format -/

/-- The six fields of a word, by the bit places of the field table of 30_encoding.md R42. -/
def VA64.ofWord (a : VirtualAddress) : VA64 where
  high   := a.extractLsb' 48 16
  l4     := a.extractLsb' 39 9
  l3     := a.extractLsb' 30 9
  l2     := a.extractLsb' 21 9
  l1     := a.extractLsb' 12 9
  offset := a.extractLsb' 0 12

/-- The word with the given six fields, most significant first (30_encoding.md R42). -/
def VA64.toWord (f : VA64) : VirtualAddress :=
  f.high ++ f.l4 ++ f.l3 ++ f.l2 ++ f.l1 ++ f.offset

/-! ## Level numbers -/

/-- The number `n` of a level (00_scope.md section 7: "an integer 1 to 4 naming L1 to L4"). -/
def Level.number : Level → Nat
  | .l4 => 4
  | .l3 => 3
  | .l2 => 2
  | .l1 => 1

/-- The level of a number; a number outside 1 to 4 is refused (41 R79, D14). -/
def Level.ofNumber : Nat → Except Reject Level
  | 4 => .ok .l4
  | 3 => .ok .l3
  | 2 => .ok .l2
  | 1 => .ok .l1
  | n => .error (.noSuchLevel n)

/-! ## Decoding a word at a unit -/

/-- The component extraction of one level (30_encoding.md R48, rows 2 to 5). -/
def extraction (l : Level) (a : VirtualAddress) : Instr :=
  match l with
  | .l4 => .ptIndexL4 a
  | .l3 => .ptIndexL3 a
  | .l2 => .ptIndexL2 a
  | .l1 => .ptIndexL1 a

/-- The operation a unit performs on the word presented to it. Total: "every one of the 2^64 words
matches" (30_encoding.md R47). DEDUCED (log 7): the unit, not the word, tells the five rows apart. -/
def decodeWord (u : HwUnit) (w : VirtualAddress) : Instr :=
  match u with
  | .addressDecomposer => .computeIndices w
  | .pageTableIndexExtractor l => extraction l w

/-- The unit that performs an operation (column "unit" of the table, 30_encoding.md R48). -/
def Instr.unit : Instr → HwUnit
  | .computeIndices _ => .addressDecomposer
  | .ptIndexL4 _ => .pageTableIndexExtractor .l4
  | .ptIndexL3 _ => .pageTableIndexExtractor .l3
  | .ptIndexL2 _ => .pageTableIndexExtractor .l2
  | .ptIndexL1 _ => .pageTableIndexExtractor .l1

/-! ## Raw wires -/

/-- Four-state wires to bits, `i` being the place of the first: an unknown or undriven wire is
refused by its place, never given a value (10_state.md R26, D12). DESIGN CHOICE (log 9): of several such
wires the lowest is named. -/
def bitsOfWires : Nat → List Wire → Except Reject (List Bool)
  | _, [] => .ok []
  | i, w :: ws =>
    match w with
    | .low => (bitsOfWires (i + 1) ws).map (false :: ·)
    | .high => (bitsOfWires (i + 1) ws).map (true :: ·)
    | .unknown => .error (.notDriven i)
    | .undriven => .error (.notDriven i)

/-- The number of a list of bits, the first of weight 1 (00_scope.md R5). -/
def natOfBits : List Bool → Nat
  | [] => 0
  | b :: bs => b.toNat + 2 * natOfBits bs

/-- The word on 64 driven wires, wire 0 first; anything else is refused by name. DESIGN CHOICE (log 10):
of a bundle that is both not 64 wide and not driven throughout, the width is named; the spec says only
that it is refused. -/
def wordOfWires (ws : List Wire) : Except Reject VirtualAddress :=
  if ws.length = Config.vaWidth then
    (bitsOfWires 0 ws).map fun bs => BitVec.ofNat 64 (natOfBits bs)
  else .error (.wrongWidth ws.length)

/-- The operation a unit performs on a bundle of wires, or why the bundle is no input. -/
def decode (u : HwUnit) (ws : List Wire) : Except Reject Instr :=
  (wordOfWires ws).map (decodeWord u)

/-! ## Calls -/

/-- A harness's integer as an address: a negative number cannot be presented (00 R6, D13), nor one
that does not fit (U7). A number below `2^W` arrives zero-extended, whatever `W` (D10). -/
def addressOfInt (v : Int) : Except Reject VirtualAddress :=
  if v < 0 then .error .negative
  else if 2 ^ Config.vaWidth ≤ v then .error .doesNotFit
  else .ok (BitVec.ofNat 64 v.toNat)

/-- The operation a call names; a level outside 1 to 4 is refused (41 R79). DESIGN CHOICE (log 10): of a
call whose level and number are both no input, the level is named. -/
def decodeCall : Call → Except Reject Instr
  | .computeIndices v => (addressOfInt v).map .computeIndices
  | .ptIndex n v =>
    match Level.ofNumber n with
    | .ok l => (addressOfInt v).map (extraction l)
    | .error r => .error r

/-! ## Encoding -/

/-- The word of an operation: its operand, all 64 bits of it (95_test_vectors.md section 3: "The
encoding of each step is the 64-bit word presented on vaddr"). -/
def Instr.word : Instr → VirtualAddress
  | .computeIndices a => a
  | .ptIndexL4 a => a
  | .ptIndexL3 a => a
  | .ptIndexL2 a => a
  | .ptIndexL1 a => a

/-- A wire that carries a bit. -/
def Wire.ofBool : Bool → Wire
  | false => .low
  | true => .high

/-- The wires of an operation's word, bit 0 first: what the environment drives on `vaddr`. -/
def encode (i : Instr) : List Wire :=
  (List.range Config.vaWidth).map fun k => Wire.ofBool (i.word.getLsbD k)

/-- The call that names an operation (30_encoding.md R52, R53). -/
def Instr.call : Instr → Call
  | .computeIndices a => .computeIndices a.toNat
  | .ptIndexL4 a => .ptIndex 4 a.toNat
  | .ptIndexL3 a => .ptIndex 3 a.toNat
  | .ptIndexL2 a => .ptIndex 2 a.toNat
  | .ptIndexL1 a => .ptIndex 1 a.toNat

/-! ## Written form -/

/-- The mnemonic of the row (30_encoding.md R48, R53). -/
def Instr.mnemonic : Instr → String
  | .computeIndices _ => "compute_indices"
  | .ptIndexL4 _ => "pt_index_l4"
  | .ptIndexL3 _ => "pt_index_l3"
  | .ptIndexL2 _ => "pt_index_l2"
  | .ptIndexL1 _ => "pt_index_l1"

/-- One hexadecimal digit, capital letters. -/
def hexDigit (n : Nat) : Char :=
  if n < 10 then Char.ofNat (48 + n) else Char.ofNat (55 + n)

/-- An address "in hexadecimal with the prefix 0x" (30_encoding.md R52). DESIGN CHOICE (log 15):
all 16 digits, as 95_test_vectors.md writes them; R52 leaves leading zeros optional. -/
def renderAddress (a : VirtualAddress) : String :=
  "0x" ++ String.ofList ((List.range 16).map fun i => hexDigit (a.toNat / 16 ^ (15 - i) % 16))

/-- An operation as it is written: mnemonic and operand in parentheses (30_encoding.md R52). -/
def renderInstr (i : Instr) : String :=
  i.mnemonic ++ "(" ++ renderAddress i.word ++ ")"

/-- A result as it is written: "a parenthesised 4-tuple in the order (L4, L3, L2, L1)", fields in
decimal (30_encoding.md R52). -/
def renderTuple (t : IndexTuple) : String :=
  "(" ++ toString t.l4.toNat ++ ", " ++ toString t.l3.toNat ++ ", " ++ toString t.l2.toNat ++ ", "
    ++ toString t.l1.toNat ++ ")"

/-! ## The operation table -/

/-- One row of the operation table: its unit, its opcode mask and match, and the outputs it
produces (30_encoding.md R47, R48). -/
structure OpcodeRow where
  mnemonic : String
  unit     : HwUnit
  mask     : BitVec 64
  pattern  : BitVec 64
  produces : List Level
  deriving DecidableEq, Repr

/-- The five rows, in the table's order (30_encoding.md R48); mask and match are 0 in each (R47). -/
def opcodeTable : List OpcodeRow :=
  [ ⟨"compute_indices", .addressDecomposer, 0, 0, [.l4, .l3, .l2, .l1]⟩,
    ⟨"pt_index_l4", .pageTableIndexExtractor .l4, 0, 0, [.l4]⟩,
    ⟨"pt_index_l3", .pageTableIndexExtractor .l3, 0, 0, [.l3]⟩,
    ⟨"pt_index_l2", .pageTableIndexExtractor .l2, 0, 0, [.l2]⟩,
    ⟨"pt_index_l1", .pageTableIndexExtractor .l1, 0, 0, [.l1]⟩ ]

/-- A word matches a row when its bits under the mask are the pattern. -/
def OpcodeRow.accepts (r : OpcodeRow) (w : VirtualAddress) : Bool :=
  w &&& r.mask == r.pattern

/-! ## The host's question -/

/-- The wires that carry the low `nbits` bits of `w`, the wires above them low, and at least the
64 wires of the port. -/
def wiresOfNat (nbits w : Nat) : List Wire :=
  (List.range (max nbits Config.vaWidth)).map fun k => Wire.ofBool (decide (k < nbits) && w.testBit k)

/-- The operation the WHOLE BLOCK reads from a word of the table. It is `compute_indices` for every
word, also for a word of rows 2 to 5: their mask and match are 0 too, and they are "not
alternatives among which a decoder chooses" (30_encoding.md R48; log 7). -/
def decodeTableWord (nbits w : Nat) : Option Instr :=
  match decode .addressDecomposer (wiresOfNat nbits w) with
  | .ok i => some i
  | .error _ => none

end Sys2Proof
end

