-- ==== Sys2Proof/Machine/Operands.lean ====
section
/-! DEFINITION. The one computation of the block, field extraction (30_encoding.md section 2, 41 R73),
the result tuple and its views, and the functions the spec's laws speak of. Nothing here touches the
interface. -/

namespace Sys2Proof.Machine

/-! ## The extraction -/

/-- The four right-shift amounts, constants of the block (00_scope.md R4, 41 R73). -/
def shift : Level → Nat
  | .l4 => 39
  | .l3 => 30
  | .l2 => 21
  | .l1 => 12

/-- The mask `0x1FF`, "9 ones" (00_scope.md R4). -/
def indexMask : Nat := 0x1FF

/-- A fixed logical right shift followed by the mask `0x1FF`, and the 9 bits that are left
(30_encoding.md R43). For an address of any width: with `w` above 64 the bits above 47 are HIGH
(30_encoding.md R55). -/
def extractField {w : Nat} (s : Nat) (a : BitVec w) : Index :=
  ((a >>> s) &&& BitVec.ofNat w indexMask).setWidth 9

/-- The level-`l` page-table index, the output of the level-`l` instance of
`page_table_index_extractor` (41 R73). -/
def ptIndex (l : Level) (a : VirtualAddress) : Index :=
  extractField (shift l) a

/-- `compute_indices`: the four extractions, in the order (L4, L3, L2, L1) (40 R56; C2). -/
def computeIndices (a : VirtualAddress) : IndexTuple where
  l4 := ptIndex .l4 a
  l3 := ptIndex .l3 a
  l2 := ptIndex .l2 a
  l1 := ptIndex .l1 a

/-- `compute_indices` of an address kept in an integer of another width `w` (30_encoding.md R55 for
`w` at least 64; D3). -/
def computeIndicesOfWidth {w : Nat} (a : BitVec w) : IndexTuple where
  l4 := extractField (shift .l4) a
  l3 := extractField (shift .l3) a
  l2 := extractField (shift .l2) a
  l1 := extractField (shift .l1) a

/-- The levels whose output a unit drives: the block is "exactly four instances of the sub-unit, one
per level, all fed the same vaddr, and nothing else" (41 R74). -/
def drivenLevels : HwUnit → List Level
  | .addressDecomposer => [.l4, .l3, .l2, .l1]
  | .pageTableIndexExtractor l => [l]

/-! ## Views of the result -/

/-- The field of one level. -/
def field (t : IndexTuple) : Level → Index
  | .l4 => t.l4
  | .l3 => t.l3
  | .l2 => t.l2
  | .l1 => t.l1

/-- The tuple as an array: "element 0 is L4, element 1 is L3, element 2 is L2, element 3 is L1"
(30_encoding.md R44). -/
def elements (t : IndexTuple) : List Index :=
  [t.l4, t.l3, t.l2, t.l1]

/-- The packed form IDX36, `{idx_l4, idx_l3, idx_l2, idx_l1}` (30_encoding.md R45). -/
def pack (t : IndexTuple) : BitVec 36 :=
  t.l4 ++ t.l3 ++ t.l2 ++ t.l1

/-- The tuple of a packed result: L4 in bits 35:27, L3 in 26:18, L2 in 17:9, L1 in 8:0
(30_encoding.md R45). -/
def unpack (p : BitVec 36) : IndexTuple where
  l4 := p.extractLsb' 27 9
  l3 := p.extractLsb' 18 9
  l2 := p.extractLsb' 9 9
  l1 := p.extractLsb' 0 9

/-- A field held in `n` bits by a consumer: zero-extended, never sign-extended (30_encoding.md R46). -/
def widen (n : Nat) (f : Index) : BitVec n :=
  f.setWidth n

/-! ## The functions of the laws -/

/-- The page number `P(a) = a[47:12]` (40 R65, R68). -/
def pageNumber (a : VirtualAddress) : BitVec 36 :=
  a.extractLsb' 12 36

/-- The address with its in-page offset replaced, `{a[63:12], k}` (40 R61). -/
def withOffset (a : VirtualAddress) (k : BitVec 12) : VirtualAddress :=
  a.extractLsb' 12 52 ++ k

/-- The address with its HIGH bits replaced, `{h, a[47:0]}` (40 R62). -/
def withHigh (h : BitVec 16) (a : VirtualAddress) : VirtualAddress :=
  h ++ a.extractLsb' 0 48

/-- Recomposition: the 48 address bits of a tuple and an offset, each field zero-extended to 48 bits
and shifted to its place (40 R66). -/
def recompose (t : IndexTuple) (offset : BitVec 12) : BitVec 48 :=
  (t.l4.setWidth 48 <<< 39) ||| (t.l3.setWidth 48 <<< 30) ||| (t.l2.setWidth 48 <<< 21)
    ||| (t.l1.setWidth 48 <<< 12) ||| offset.setWidth 48

/-- The address that reaches the port when a caller keeps only its low `w` bits and hands them over
zero-extended (40 R72, D10). -/
def narrowed (w : Nat) (a : VirtualAddress) : VirtualAddress :=
  (a.setWidth w).setWidth 64

/-- Which field reads bit `i` of the address, and as which of its bits: for 12 to 47, level
`(i - 12) / 9 + 1`, bit `(i - 12) mod 9`; any other bit is read by no field (40 R63). -/
def readerOfBit (i : Nat) : Option (Level × Nat) :=
  if i < 12 then none
  else match (i - 12) / 9 with
    | 0 => some (.l1, (i - 12) % 9)
    | 1 => some (.l2, (i - 12) % 9)
    | 2 => some (.l3, (i - 12) % 9)
    | 3 => some (.l4, (i - 12) % 9)
    | _ => none

/-- The address with bit `i` toggled (40 R64; C5 reads the source's "shifting" so). -/
def toggleBit (a : VirtualAddress) (i : Nat) : VirtualAddress :=
  a ^^^ BitVec.twoPow 64 i

/-- `pt_index(n, a)` by level number: refused for `n` outside 1 to 4 (41 R79, D14). -/
def ptIndexOfNumber (n : Nat) (a : VirtualAddress) : Except Reject Index :=
  (Level.ofNumber n).map fun l => ptIndex l a

end Sys2Proof.Machine
end

