-- ==== Sys2Proof/Machine/State.lean ====
section
/-! DEFINITION. The state of the model, the ways a run could stop, and the state after reset. The
block stores nothing: "the machine state type is the unit type. The output at any moment is a function
of the input at that moment and of nothing else" (10_state.md R15). So State holds the one signal that
is not such a function, the input (log 1). -/

namespace Sys2Proof.Machine

/-- The interface of the block at one moment. Its one datum is the input port; the four output ports
`idx_l4`, `idx_l3`, `idx_l2`, `idx_l1` (10_state.md R23) are no fields but functions of it,
`State.idxL4` to `State.idxL1` in PageTableIndexExtractor.lean, because no storage element stands between
input and output (70 R99): an output that could be set or kept would be state, which R15 and R24
exclude. There is no register, program counter, flag, control register, memory or hidden state (R16 to
R21, R24). -/
structure State where
  /-- Input port `vaddr[63:0]` (10_state.md R22): a signal, which "stores nothing" (section 3 there),
  driven by the environment. -/
  vaddr : VirtualAddress
  deriving DecidableEq, Repr

/-- The exceptions of the block: none. "The set of exception causes is empty" (60_exceptions.md R81),
so the type has no constructor and no fault can be written down. Nothing raises it; there is no
difference from the hardware to be safe or unsafe about (log 11). -/
inductive Fault where
  deriving DecidableEq, Repr

/-- What the model refuses. No operation and no step is refused. -/
inductive Refusal where
  /-- Raised by an arm of `exec` for an operation that has no meaning yet; no arm is left so. Safe. -/
  | notModelled (mnemonic : String)
  /-- Raised by the host interface (Machine/Environment.lean) for something that is no input of the
  block: the `refuse` treatments of 93_implementation_defined.md section 1. Safe: such a run does not
  exist in the model (log 9, log 10). -/
  | notAnInput (why : Reject)
  deriving DecidableEq, Repr

/-- The machine right after reset. The block has no reset behaviour (70 R98) and nothing to reset
(10_state.md R25): its outputs are what they always are, the function of `vaddr`. DESIGN CHOICE, unsafe
(log 3): `vaddr` is "whatever the environment drives"; the model names 0. -/
def State.reset : State where
  vaddr := 0

end Sys2Proof.Machine
end

