-- ==== Sys2Proof/Machine/Ops.lean ====
section
/-! DEFINITION. The two things that can happen to the input port: the environment drives it, and the
block's word is read off it. Nothing can be done to an output port, which carries the value of its
expression at every moment (00_scope.md R10). There is no register file, no memory and no exception to
operate on (10_state.md R16, 20_memory.md R28, 60_exceptions.md R81, R87, R88). -/

namespace Sys2Proof.Machine

/-- The environment drives a whole 64-bit word on `vaddr` (10_state.md R22, 70 R101). The outputs are
the fields of the new word at that same moment (70 R105), and nothing of the old one is left
(10_state.md R27). -/
def State.drive (s : State) (a : VirtualAddress) : State :=
  { s with vaddr := a }

/-- The word the block works on: "whatever word is on `vaddr`" (30_encoding.md R47). -/
def State.fetch (s : State) : VirtualAddress :=
  s.vaddr

end Sys2Proof.Machine
end

