-- ==== Sys2Proof/Machine/PageTableIndexExtractor.lean ====
section
/-! DEFINITION. The unit `page_table_index_extractor` and its four instances, one per level (41 R73):
each with its output port, wired to the input by one expression, and its operation. An assignment
`port <- expression` is no update: it means "the output port continuously carries the value of the
expression" (00_scope.md R10). What an operation does to the interface is that its operand stands on
`vaddr`; the port follows by its wiring. -/

namespace Sys2Proof.Machine

/-- Output port `idx_l4` of the level-4 instance: `idx_l4 <- (a >> 39) & 0x1FF`, continuously
(41 R78, 00_scope.md R10). -/
def State.idxL4 (s : State) : Index :=
  ptIndex .l4 s.vaddr

/-- `pt_index_l4(a)`: the operand stands on port `vaddr` (41 R78, "Source `a`"; log 6), and `idx_l4`
carries its field, as it always does (`State.idxL4`). No flag, no exception. -/
def execPtIndexL4 (a : VirtualAddress) (s : State) : Host.Outcome State Fault Refusal :=
  .next (s.drive a)

/-- Output port `idx_l3` of the level-3 instance: `idx_l3 <- (a >> 30) & 0x1FF`, continuously
(41 R77, 00_scope.md R10). -/
def State.idxL3 (s : State) : Index :=
  ptIndex .l3 s.vaddr

/-- `pt_index_l3(a)`: the operand stands on port `vaddr` (41 R77, "Source `a`"; log 6), and `idx_l3`
carries its field, as it always does (`State.idxL3`). No flag, no exception. -/
def execPtIndexL3 (a : VirtualAddress) (s : State) : Host.Outcome State Fault Refusal :=
  .next (s.drive a)

/-- Output port `idx_l2` of the level-2 instance: `idx_l2 <- (a >> 21) & 0x1FF`, continuously
(41 R76, 00_scope.md R10). -/
def State.idxL2 (s : State) : Index :=
  ptIndex .l2 s.vaddr

/-- `pt_index_l2(a)`: the operand stands on port `vaddr` (41 R76, "Source `a`"; log 6), and `idx_l2`
carries its field, as it always does (`State.idxL2`). No flag, no exception. -/
def execPtIndexL2 (a : VirtualAddress) (s : State) : Host.Outcome State Fault Refusal :=
  .next (s.drive a)

/-- Output port `idx_l1` of the level-1 instance: `idx_l1 <- (a >> 12) & 0x1FF`, continuously
(41 R75, 00_scope.md R10). -/
def State.idxL1 (s : State) : Index :=
  ptIndex .l1 s.vaddr

/-- `pt_index_l1(a)`: the operand stands on port `vaddr` (41 R75, "Source `a`"; log 6), and `idx_l1`
carries its field, as it always does (`State.idxL1`). No flag, no exception. -/
def execPtIndexL1 (a : VirtualAddress) (s : State) : Host.Outcome State Fault Refusal :=
  .next (s.drive a)

/-- The value that the level-`l` instance drives on its output port (10_state.md R23, 41 R74). -/
def State.output (s : State) : Level → Index
  | .l4 => s.idxL4
  | .l3 => s.idxL3
  | .l2 => s.idxL2
  | .l1 => s.idxL1

end Sys2Proof.Machine
end

