-- ==== Sys2Proof/Machine/AddressDecomposer.lean ====
section
/-! DEFINITION. The unit `address_decomposer`: four instances of the sub-unit, all fed the same `vaddr`,
and nothing else (41 R74); its outputs as a tuple and packed, and its one operation (40 R56). -/

namespace Sys2Proof.Machine

/-- The tuple on the four output ports, in the order (L4, L3, L2, L1) (10_state.md R23). -/
def State.outputs (s : State) : IndexTuple where
  l4 := s.idxL4
  l3 := s.idxL3
  l2 := s.idxL2
  l1 := s.idxL1

/-- The packed view of the four output ports (30_encoding.md R45). -/
def State.packed (s : State) : BitVec 36 :=
  pack s.outputs

/-- The output ports that a unit has, each with the value it carries: four for the block, one for an
instance used alone (41 R73, R74). -/
def State.ports (s : State) (u : HwUnit) : List (Level × Index) :=
  (drivenLevels u).map fun l => (l, s.output l)

/-- `compute_indices(a)`: the operand stands on port `vaddr` (40 R56, "the 64-bit unsigned value `a` on
port `vaddr`"; log 6), and the four output ports carry its four fields, "at once and continuously"
(`State.outputs`). No flag, no exception, no state; bits 63:48 and 11:0 are not read (R56, R60). -/
def execComputeIndices (a : VirtualAddress) (s : State) : Host.Outcome State Fault Refusal :=
  .next (s.drive a)

end Sys2Proof.Machine
end

