-- ==== Sys2Proof/Machine/Dispatch.lean ====
section
/-! DEFINITION. The one match over the operations; each meaning is a definition of its own. -/

namespace Sys2Proof.Machine

def exec (i : Instr) (s : State) : Host.Outcome State Fault Refusal :=
  match i with
  -- the whole block (40 R56)
  | .computeIndices a => Sys2Proof.Machine.execComputeIndices a s
  -- its four component extractions (41 R78, R77, R76, R75)
  | .ptIndexL4 a => Sys2Proof.Machine.execPtIndexL4 a s
  | .ptIndexL3 a => Sys2Proof.Machine.execPtIndexL3 a s
  | .ptIndexL2 a => Sys2Proof.Machine.execPtIndexL2 a s
  | .ptIndexL1 a => Sys2Proof.Machine.execPtIndexL1 a s

end Sys2Proof.Machine
end

