-- ==== Sys2Proof/Machine/Step.lean ====
section
/-! DEFINITION. One evaluation: the unit takes the word on `vaddr`, on which its outputs already are.
"There is no step relation" (00_scope.md section 6): a step changes nothing (log 2). -/

namespace Sys2Proof.Machine

/-- One evaluation of a unit: the word on `vaddr` is the operand of the unit's operation
(30_encoding.md R47, R48). The model has no time (70 R106) and the block no clock (70 R99): the outputs
do not wait for a step, and a step leaves the interface as it is (log 2). -/
def stepOf (u : HwUnit) (s : State) : Host.Outcome State Fault Refusal :=
  exec (decodeWord u s.fetch) s

/-- One evaluation of the hardware, the whole block `address_decomposer` (00_scope.md R1). -/
def step (s : State) : Host.Outcome State Fault Refusal :=
  stepOf .addressDecomposer s

/-- The environment presents a word of the table on `vaddr` (log 5). A number that is no input of the
block is not presented (U7). -/
def State.withFetchWord (s : State) (nbits w : Nat) : State :=
  match wordOfWires (wiresOfNat nbits w) with
  | .ok a => s.drive a
  | .error _ => s

end Sys2Proof.Machine
end

