-- ==== Sys2Proof/Machine/Environment.lean ====
section
/-! DEFINITION. What the environment does with the block: it presents words, reads the tuple, offers
wires and calls that may be no input, and lets several contexts share one instance or use one each
(00_scope.md section 6, 20_memory.md R36, 60_exceptions.md R93). -/

namespace Sys2Proof.Machine

/-- Present `a` on `vaddr` and let the unit evaluate it; the caller reads the outputs of the state that
is answered (70 R105: hold `vaddr` while they are used). -/
def evaluate (u : HwUnit) (a : VirtualAddress) (s : State) : Host.Outcome State Fault Refusal :=
  stepOf u (s.drive a)

/-- Present 64 wires to a unit. Wires that are not an input word are refused, never given a value
(10_state.md R26, D12). -/
def presentWires (u : HwUnit) (ws : List Wire) (s : State) : Host.Outcome State Fault Refusal :=
  match wordOfWires ws with
  | .ok a => evaluate u a s
  | .error r => .refused (.notAnInput r)

/-- Make a call: the unit it names evaluates its number; a call that is no input is refused
(41 R79, D13, D14, U7). -/
def presentCall (c : Call) (s : State) : Host.Outcome State Fault Refusal :=
  match decodeCall c with
  | .ok i => evaluate i.unit i.word s
  | .error r => .refused (.notAnInput r)

/-- The operations carried out one after another at the same port, stopping at the first fault or
refusal. -/
def execAll : List Instr → State → Host.Outcome State Fault Refusal
  | [], s => .next s
  | i :: is, s =>
    match exec i s with
    | .next t => execAll is t
    | .fault f => .fault f
    | .refused r => .refused r

/-- One context's request for the indices of an address (60_exceptions.md R93). -/
structure Request where
  context : Nat
  address : VirtualAddress
  deriving DecidableEq, Repr

/-- What one context reads off the outputs at its turn; the tuple is the context's, the block keeps none
(10_state.md R27). -/
structure Reply where
  context : Nat
  indices : IndexTuple
  deriving DecidableEq, Repr

/-- Contexts taking turns on ONE instance of the block. The order of the turns is the list's:
"arranging the turns is outside the block" (60_exceptions.md R93; log 12). -/
def serve : List Request → State → List Reply
  | [], _ => []
  | r :: rs, s =>
    match evaluate .addressDecomposer r.address s with
    | .next t => ⟨r.context, t.outputs⟩ :: serve rs t
    | .fault _ => []
    | .refused _ => []

/-- Contexts with an instance of the block EACH; `own c` is the interface of context `c`'s instance
("instances share nothing", 60_exceptions.md R93). -/
def serveApart : List Request → (Nat → State) → List Reply
  | [], _ => []
  | r :: rs, own =>
    match evaluate .addressDecomposer r.address (own r.context) with
    | .next t => ⟨r.context, t.outputs⟩ :: serveApart rs fun c => if c = r.context then t else own c
    | .fault _ => []
    | .refused _ => []

end Sys2Proof.Machine
end

