-- ==== Sys2Proof/Safety.lean ====
section
/-! DEFINITION. What a good moment and a good run of the block are, in the terms the statements use. -/

namespace Sys2Proof.Machine

/-- Each output port of a unit carries the field of the value on `vaddr` at this moment: bit `k` of
level `n` is address bit `12 + 9 * (n - 1) + k` (70 R98, 20_memory.md R32; places by 41 R73 and
40 R65). Said of the bits, apart from how the wiring is defined. -/
abbrev Settled (u : HwUnit) (s : State) : Prop :=
  ∀ p ∈ s.ports u, ∀ k < 9, p.2.getLsbD k = s.vaddr.getLsbD (12 + 9 * (p.1.number - 1) + k)

/-- The outcome is a next state: no fault, no refusal (40 R59). -/
def Completes (o : Host.Outcome State Fault Refusal) : Prop :=
  ∃ t, o = .next t

/-- One and the same outcome from any two states with the same word on `vaddr`: nothing else is carried
from one evaluation to the next (10_state.md R15, R24, R27). -/
def Memoryless (f : State → Host.Outcome State Fault Refusal) : Prop :=
  ∀ s s' : State, s.vaddr = s'.vaddr → f s = f s'

/-- Presenting `a` and presenting `b` give the same on every output port that the unit has, at every unit
and whatever was presented before. -/
def SameOutputs (a b : VirtualAddress) : Prop :=
  ∀ u s, ∃ t t', evaluate u a s = .next t ∧ evaluate u b s = .next t' ∧
    t.ports u = t'.ports u

/-- The replies that one context sees. -/
def repliesTo (c : Nat) (rs : List Reply) : List IndexTuple :=
  (rs.filter fun r => r.context == c).map Reply.indices

/-- The addresses that one context presented. -/
def addressesOf (c : Nat) (rs : List Request) : List VirtualAddress :=
  (rs.filter fun r => r.context == c).map Request.address

end Sys2Proof.Machine
end

