-- ==== Sys2Proof/Certificates/Slice0/Obligations.lean ====
section
/-! DEFINITION. The statements for the provers. Rule numbers are those of spec/. "the block" is the
unit `address_decomposer`; `evaluate u a s` is: the environment drives `a` on `vaddr`, then unit `u`
takes one step. -/

open Sys2Proof Sys2Proof.Machine

/-! ## Encoding -/

/-- R47, R48, R54: the wires of an operation, presented to its unit, decode to that operation, with
every one of the 2^64 operands. -/
def Obligations.DecodeOfEncodeIsTheOperation : Prop :=
  ∀ i : Instr, i.wellFormed = true → decode i.unit (encode i) = .ok i

/-- R47, R54: no two bundles of wires decode to one operation; what decodes is the encoding. -/
def Obligations.EncodeOfDecodeIsTheWires : Prop :=
  ∀ (u : HwUnit) (ws : List Wire) (i : Instr), decode u ws = .ok i → encode i = ws ∧ i.unit = u

/-- R26, R54, R101, D12: a bundle of wires is an input word exactly when it is 64 wide and every wire
is driven. Which refusal is named is the model's choice: of a bundle that is both of another width and not
driven throughout, the width is named (log 10); of one that is 64 wide, the place of the first wire that
is not driven (log 9). -/
def Obligations.WiresDecodeExactlyWhenDriven : Prop :=
  ∀ (u : HwUnit) (ws : List Wire),
    ((∃ i, decode u ws = .ok i) ↔ wiresWellFormed ws = true) ∧
    (ws.length ≠ 64 → decode u ws = .error (.wrongWidth ws.length)) ∧
    (ws.length = 64 → ∀ k, (∃ w ∈ ws[k]?, w.isDriven = false) →
      (∀ j < k, ∀ w ∈ ws[j]?, w.isDriven = true) → decode u ws = .error (.notDriven k))

/-- R42 whole: the six fields of VA64 divide the word: fields to word to fields, and word to fields to
word, give back what one began with; each field stands at its place, and each index field is its
shift and mask. -/
def Obligations.Va64FieldsAndWordAgree : Prop :=
  (∀ f : VA64, VA64.ofWord f.toWord = f) ∧ (∀ a : VirtualAddress, (VA64.ofWord a).toWord = a) ∧
  (∀ f : VA64, f.toWord.extractLsb' 48 16 = f.high ∧ f.toWord.extractLsb' 39 9 = f.l4 ∧
    f.toWord.extractLsb' 30 9 = f.l3 ∧ f.toWord.extractLsb' 21 9 = f.l2 ∧
    f.toWord.extractLsb' 12 9 = f.l1 ∧ f.toWord.extractLsb' 0 12 = f.offset) ∧
  (∀ f : VA64, ((f.toWord >>> 39) &&& 0x1FF).setWidth 9 = f.l4 ∧
    ((f.toWord >>> 30) &&& 0x1FF).setWidth 9 = f.l3 ∧
    ((f.toWord >>> 21) &&& 0x1FF).setWidth 9 = f.l2 ∧
    ((f.toWord >>> 12) &&& 0x1FF).setWidth 9 = f.l1)

/-- R42, R56: what a step of the block puts on its outputs is the four index fields of the VA64 word
on `vaddr`. -/
def Obligations.StepOutputsAreTheVa64Fields : Prop :=
  ∀ (f : VA64) (s : State), s.vaddr = f.toWord →
    ∃ t, step s = .next t ∧ t.outputs = ⟨f.l4, f.l3, f.l2, f.l1⟩

/-- R47 whole: mask and match are 0 in every row, so every one of the 2^64 words matches every row;
the block performs its one operation on whatever word is on `vaddr`. -/
def Obligations.EveryWordMatchesEveryRow : Prop :=
  (∀ r ∈ opcodeTable, r.mask = 0x0000000000000000 ∧ r.pattern = 0x0000000000000000 ∧
    ∀ w : VirtualAddress, r.accepts w = true) ∧
  (∀ s : State, step s = exec (.computeIndices s.vaddr) s)

/-- R48: the table has five rows, one per operation; each names its operation, its unit and the
outputs it produces. -/
def Obligations.TableRowsAreTheFiveOperations : Prop :=
  opcodeTable.length = 5 ∧
  (∀ r ∈ opcodeTable, ∀ w, (decodeWord r.unit w).mnemonic = r.mnemonic ∧
    drivenLevels r.unit = r.produces) ∧
  (∀ i : Instr, ∃ r ∈ opcodeTable, r.unit = i.unit ∧ r.mnemonic = i.mnemonic)

/-- Sanity: a few words decode to the operation they stand for (95_test_vectors.md V12, X1, X8, X15,
X29), each at its unit. -/
def Obligations.SampleWordsDecode : Prop :=
  decode .addressDecomposer (wiresOfNat 64 0x0000123456789ABC)
    = .ok (.computeIndices 0x0000123456789ABC) ∧
  decode (.pageTableIndexExtractor .l1) (wiresOfNat 64 0x1000) = .ok (.ptIndexL1 0x1000) ∧
  decode (.pageTableIndexExtractor .l2) (wiresOfNat 64 0x200000) = .ok (.ptIndexL2 0x200000) ∧
  decode (.pageTableIndexExtractor .l3) (wiresOfNat 64 0x40000000) = .ok (.ptIndexL3 0x40000000) ∧
  decode (.pageTableIndexExtractor .l4) (wiresOfNat 64 0xFFFF800000000000)
    = .ok (.ptIndexL4 0xFFFF800000000000)

/-- R52, R53, R79, D13, U7: a call is accepted exactly when it is well formed, and the call that an
operation is written as decodes to that operation. -/
def Obligations.CallsDecodeExactlyWhenWellFormed : Prop :=
  (∀ c : Call, (∃ i, decodeCall c = .ok i) ↔ c.wellFormed = true) ∧
  (∀ i : Instr, decodeCall i.call = .ok i)

/-! ## The step -/

/-- A step runs the decoded operation: whatever the word on `vaddr` decodes to at a unit is what a
step of that unit carries out, and it always decodes (R47, R49, R59); the step of the hardware is the
step of the block. Nothing is added around it: no program counter moves. -/
def Obligations.StepRunsTheDecodedOperation : Prop :=
  (∀ (u : HwUnit) (s : State) (i : Instr),
    decode u (wiresOfNat 64 s.vaddr.toNat) = .ok i → stepOf u s = exec i s) ∧
  (∀ (u : HwUnit) (s : State), ∃ i, decode u (wiresOfNat 64 s.vaddr.toNat) = .ok i) ∧
  (∀ s : State, step s = stepOf .addressDecomposer s)

/-- R48, R32: all five operations act on the same input word at the same time: a step of the block does
on each output what that level's component extraction does, and after any operation every output port
of the block carries its field of the operand. That all four ports follow the operand, for a component
extraction too and from a state with another word on `vaddr`, is the model's reading (log 6). -/
def Obligations.StepPerformsEveryExtraction : Prop :=
  (∀ (s : State) (l : Level), ∃ t t', step s = .next t ∧
    exec (extraction l s.vaddr) s = .next t' ∧ t.output l = t'.output l) ∧
  (∀ (i : Instr) (s : State), ∃ t, exec i s = .next t ∧
    ∀ l : Level, t.output l = i.word.extractLsb' (12 + 9 * (l.number - 1)) 9)

/-- The host's placing of a word (log 5): a number below 2^64 is presented on `vaddr`, nothing else
changes, and the next step runs `compute_indices` of it. -/
def Obligations.PlacedWordRunsNext : Prop :=
  ∀ (s : State) (w : Nat), w < 2 ^ 64 →
    s.withFetchWord 64 w = s.drive (BitVec.ofNat 64 w) ∧
    decodeTableWord 64 w = some (.computeIndices (BitVec.ofNat 64 w)) ∧
    step (s.withFetchWord 64 w) = exec (.computeIndices (BitVec.ofNat 64 w)) (s.withFetchWord 64 w)

/-! ## The five operations -/

/-- R56 whole: `compute_indices` completes on every word, drives the four outputs with the four shifted
and masked fields, which are the slices of the word, has no other port and writes no flag; and its
corner cases and worked example. -/
def Obligations.ComputeIndicesDrivesTheFourFields : Prop :=
  (∀ (a : VirtualAddress) (s : State), ∃ t, exec (.computeIndices a) s = .next t ∧
    t.idxL4 = ((a >>> 39) &&& 0x1FF).setWidth 9 ∧ t.idxL4 = a.extractLsb' 39 9 ∧
    t.idxL3 = ((a >>> 30) &&& 0x1FF).setWidth 9 ∧ t.idxL3 = a.extractLsb' 30 9 ∧
    t.idxL2 = ((a >>> 21) &&& 0x1FF).setWidth 9 ∧ t.idxL2 = a.extractLsb' 21 9 ∧
    t.idxL1 = ((a >>> 12) &&& 0x1FF).setWidth 9 ∧ t.idxL1 = a.extractLsb' 12 9 ∧
    t.outputs = ⟨t.idxL4, t.idxL3, t.idxL2, t.idxL1⟩ ∧
    t.ports .addressDecomposer = [(.l4, t.idxL4), (.l3, t.idxL3), (.l2, t.idxL2), (.l1, t.idxL1)] ∧
    flagsWritten (.computeIndices a) = []) ∧
  (∀ s : State, ∀ p ∈ ([(0, ⟨0, 0, 0, 0⟩), (0xFFFFFFFFFFFFFFFF, ⟨511, 511, 511, 511⟩),
      (0xFFFF000000000FFF, ⟨0, 0, 0, 0⟩), (0xFFFF800000000000, ⟨256, 0, 0, 0⟩),
      (0x0000800000000000, ⟨256, 0, 0, 0⟩), (0x0000123456789ABC, ⟨36, 209, 179, 393⟩)]
      : List (VirtualAddress × IndexTuple)),
    ∃ t, exec (.computeIndices p.1) s = .next t ∧ t.outputs = p.2)

/-- R78 whole: `pt_index_l4` completes on every word, its one output port `idx_l4` carries the
rule's three forms, it writes no flag; and its corner cases and worked example. -/
def Obligations.PtIndexL4DrivesItsField : Prop :=
  (∀ (a : VirtualAddress) (s : State), ∃ t, exec (.ptIndexL4 a) s = .next t ∧
    t.idxL4 = ((a >>> 39) &&& 0x1FF).setWidth 9 ∧ t.idxL4 = a.extractLsb' 39 9 ∧
    t.idxL4.toNat = a.toNat / 549755813888 % 512 ∧ t.idxL4 = (VA64.ofWord a).l4 ∧
    t.ports (.pageTableIndexExtractor .l4) = [(.l4, t.idxL4)] ∧
    flagsWritten (.ptIndexL4 a) = []) ∧
  (∀ s : State, ∀ p ∈ ([(0x8000000000, 1), (0x4000000000, 0), (0x7FFFFFFFFF, 0),
      (0x800000000000, 256), (0x1000000000000, 0), (0xFF8000000000, 511),
      (0xFFFF800000000000, 256), (0x0000123456789ABC, 36)] : List (VirtualAddress × Index)),
    ∃ t, exec (.ptIndexL4 p.1) s = .next t ∧ t.idxL4 = p.2) ∧
  (∀ a : VirtualAddress, (a >>> 39).extractLsb' 9 16 = a.extractLsb' 48 16) ∧
  (0xFFFF800000000000 : VirtualAddress) >>> 39 = 0x1FFFF00

/-- R77 whole: `pt_index_l3` completes on every word, its one output port `idx_l3` carries the
rule's three forms, it writes no flag; and its corner cases and worked example. Of an address kept in 32 bits only
the low 2 bits of the field are left: this clause rests on zero-extension, decision D10 (log 13). -/
def Obligations.PtIndexL3DrivesItsField : Prop :=
  (∀ (a : VirtualAddress) (s : State), ∃ t, exec (.ptIndexL3 a) s = .next t ∧
    t.idxL3 = ((a >>> 30) &&& 0x1FF).setWidth 9 ∧ t.idxL3 = a.extractLsb' 30 9 ∧
    t.idxL3.toNat = a.toNat / 1073741824 % 512 ∧ t.idxL3 = (VA64.ofWord a).l3 ∧
    t.ports (.pageTableIndexExtractor .l3) = [(.l3, t.idxL3)] ∧
    flagsWritten (.ptIndexL3 a) = []) ∧
  (∀ s : State, ∀ p ∈ ([(0x40000000, 1), (0x20000000, 0), (0x3FFFFFFF, 0), (0x4000000000, 256),
      (0x8000000000, 0), (0x7FC0000000, 511), (0x0000123456789ABC, 209)]
      : List (VirtualAddress × Index)),
    ∃ t, exec (.ptIndexL3 p.1) s = .next t ∧ t.idxL3 = p.2) ∧
  (∀ (a : VirtualAddress) (s : State), ∃ t, exec (.ptIndexL3 (narrowed 32 a)) s = .next t ∧
    t.idxL3.toNat = (a.extractLsb' 30 9).toNat % 4)

/-- R76 whole: `pt_index_l2` completes on every word, its one output port `idx_l2` carries the
rule's three forms, it writes no flag; and its corner cases and worked example. -/
def Obligations.PtIndexL2DrivesItsField : Prop :=
  (∀ (a : VirtualAddress) (s : State), ∃ t, exec (.ptIndexL2 a) s = .next t ∧
    t.idxL2 = ((a >>> 21) &&& 0x1FF).setWidth 9 ∧ t.idxL2 = a.extractLsb' 21 9 ∧
    t.idxL2.toNat = a.toNat / 2097152 % 512 ∧ t.idxL2 = (VA64.ofWord a).l2 ∧
    t.ports (.pageTableIndexExtractor .l2) = [(.l2, t.idxL2)] ∧
    flagsWritten (.ptIndexL2 a) = []) ∧
  (∀ s : State, ∀ p ∈ ([(0x200000, 1), (0x100000, 0), (0x1FFFFF, 0), (0x20000000, 256),
      (0x40000000, 0), (0x3FE00000, 511), (0x0000123456789ABC, 179)]
      : List (VirtualAddress × Index)),
    ∃ t, exec (.ptIndexL2 p.1) s = .next t ∧ t.idxL2 = p.2)

/-- R75 whole: `pt_index_l1` completes on every word, its one output port `idx_l1` carries the
rule's three forms, it writes no flag; and its corner cases and worked example. -/
def Obligations.PtIndexL1DrivesItsField : Prop :=
  (∀ (a : VirtualAddress) (s : State), ∃ t, exec (.ptIndexL1 a) s = .next t ∧
    t.idxL1 = ((a >>> 12) &&& 0x1FF).setWidth 9 ∧ t.idxL1 = a.extractLsb' 12 9 ∧
    t.idxL1.toNat = a.toNat / 4096 % 512 ∧ t.idxL1 = (VA64.ofWord a).l1 ∧
    t.ports (.pageTableIndexExtractor .l1) = [(.l1, t.idxL1)] ∧
    flagsWritten (.ptIndexL1 a) = []) ∧
  (∀ s : State, ∀ p ∈ ([(0x1000, 1), (0x800, 0), (0xFFF, 0), (0x100000, 256), (0x200000, 0),
      (0x1FF000, 511), (0x0000123456789ABC, 393)] : List (VirtualAddress × Index)),
    ∃ t, exec (.ptIndexL1 p.1) s = .next t ∧ t.idxL1 = p.2)

/-- What an operation changes and what it does not: afterwards its operand stands on `vaddr`, the one
datum of the interface; where it stood there already nothing changes. That carrying an operation out
puts its operand on `vaddr` is the model's reading of the rules' "Operands" lines (log 6). -/
def Obligations.OperandStandsOnVaddr : Prop :=
  ∀ (i : Instr) (s : State), ∃ t, exec i s = .next t ∧ t.vaddr = i.word ∧
    (s.vaddr = i.word → t = s) ∧ flagsWritten i = []

/-! ## Guarantees of the source -/

/-- R57: every field of the result lies in [0, 511], and not for want of width: the shifted and masked
64-bit value itself is at most 511, it is the value on the port, and every value of the range occurs. -/
def Obligations.EveryFieldLiesInRange : Prop :=
  ∀ l : Level,
    (∀ (a : VirtualAddress) (s : State), ∃ t, evaluate .addressDecomposer a s = .next t ∧
      ((a >>> shift l) &&& BitVec.ofNat 64 indexMask).toNat ≤ 511 ∧
      (t.output l).toNat = ((a >>> shift l) &&& BitVec.ofNat 64 indexMask).toNat) ∧
    (∀ v ≤ 511, ∀ s : State, ∃ a t, evaluate .addressDecomposer a s = .next t ∧
      (t.output l).toNat = v)

/-- R58: presenting the same address gives the same interface, whatever was on it before; hence calling
twice gives the tuple twice, and at every moment with that address on `vaddr` the tuple is that one. -/
def Obligations.ResultDependsOnTheAddressAlone : Prop :=
  ∀ a : VirtualAddress, ∃ t, (∀ s, evaluate .addressDecomposer a s = .next t) ∧
    evaluate .addressDecomposer a t = .next t ∧
    ∀ s : State, s.vaddr = a → s.outputs = t.outputs

/-- R59: every operation, every step of every unit, and so every evaluation of every word, completes
from every state. -/
def Obligations.EveryEvaluationCompletes : Prop :=
  (∀ i s, Completes (exec i s)) ∧ (∀ u s, Completes (stepOf u s)) ∧
  (∀ u a s, Completes (evaluate u a s))

/-- R81: no exception exists and none is raised, nor is an operation refused. -/
def Obligations.NoExceptionExistsOrIsRaised : Prop :=
  (∀ _ : Fault, False) ∧
  (∀ i s, (∀ f, exec i s ≠ .fault f) ∧ ∀ r, exec i s ≠ .refused r) ∧
  (∀ s : State, (∀ f, step s ≠ .fault f) ∧ ∀ r, step s ≠ .refused r)

/-- R60: an operation produces nothing but the values on the output ports, which no state keeps: with
its operand on `vaddr` it leaves the whole interface as it was, and so does every step; no flag is
written. -/
def Obligations.EvaluationHasNoSideEffect : Prop :=
  (∀ i : Instr, flagsWritten i = []) ∧
  (∀ (i : Instr) (s : State), s.vaddr = i.word → exec i s = .next s) ∧
  (∀ (u : HwUnit) (s : State), stepOf u s = .next s)

/-- R61: the in-page offset never affects the result, at any unit. -/
def Obligations.OffsetNeverMatters : Prop :=
  ∀ (a : VirtualAddress) (k : BitVec 12), SameOutputs (withOffset a k) a

/-- R62: the bits above 47 never affect the result. -/
def Obligations.HighBitsNeverMatter : Prop :=
  ∀ (a : VirtualAddress) (h : BitVec 16), SameOutputs (withHigh h a) a

/-- R30: an address that is not page-aligned gives the same result as the page-aligned address below
it. -/
def Obligations.UnalignedAddressActsAsItsPage : Prop :=
  ∀ a : VirtualAddress, SameOutputs a (BitVec.ofNat 64 (a.toNat / 4096 * 4096))

/-- R49: no word is illegal or reserved at any unit, and any value in the ignored fields HIGH and
OFFSET is accepted and changes nothing. -/
def Obligations.NoWordIsIllegal : Prop :=
  (∀ (u : HwUnit) (w : VirtualAddress), ((decodeWord u w).wellFormed = true) ∧
    ∀ s, Completes (exec (decodeWord u w) s)) ∧
  (∀ (f : VA64) (h : BitVec 16) (o : BitVec 12),
    SameOutputs { f with high := h, offset := o }.toWord f.toWord)

/-- R50, R82: an address whose bits 63:48 do not repeat bit 47 gives the result of any address with
the same bits 47:12, in particular of its canonical form; no fault, no check. -/
def Obligations.NonCanonicalAddressesAreOrdinary : Prop :=
  (∀ a b : VirtualAddress, pageNumber a = pageNumber b → SameOutputs a b) ∧
  (∀ a : VirtualAddress, SameOutputs a (withHigh (if a.getLsbD 47 then 0xFFFF else 0) a))

/-- R63: bit `i` of the address, 12 to 47, is read by exactly one field, level
`(i - 12) / 9 + 1`, as its bit `(i - 12) mod 9`; bits 0 to 11 and 48 to 63 are read by no field. -/
def Obligations.EachBitIsReadByExactlyOneField : Prop :=
  (∀ i, 12 ≤ i → i ≤ 47 → ∃ l, readerOfBit i = some (l, (i - 12) % 9) ∧
    l.number = (i - 12) / 9 + 1) ∧
  (∀ i, i < 12 ∨ 47 < i → readerOfBit i = none) ∧
  (∀ (a : VirtualAddress) (s : State), ∃ t, evaluate .addressDecomposer a s = .next t ∧
    ∀ (l : Level) (k : Nat), k < 9 → ∃ i, 12 ≤ i ∧ i ≤ 47 ∧ readerOfBit i = some (l, k) ∧
      (t.output l).getLsbD k = a.getLsbD i ∧ ∀ j, readerOfBit j = some (l, k) → j = i)

/-- R64: toggling one bit 12 to 47 of the address toggles exactly one bit of exactly one output;
toggling any other bit changes no output. -/
def Obligations.TogglingABitChangesOneOutputBit : Prop :=
  ∀ (a : VirtualAddress) (s : State) (i : Nat),
    (12 ≤ i → i ≤ 47 → ∃ l t t',
      l.number = (i - 12) / 9 + 1 ∧
      evaluate .addressDecomposer a s = .next t ∧
      evaluate .addressDecomposer (toggleBit a i) s = .next t' ∧
      t'.output l = t.output l ^^^ BitVec.twoPow 9 ((i - 12) % 9) ∧ t'.output l ≠ t.output l ∧
      ∀ l', l' ≠ l → t'.output l' = t.output l') ∧
    (i < 12 ∨ 47 < i → i < 64 → SameOutputs (toggleBit a i) a)

/-! ## Derived laws -/

/-- R65: the packed outputs are the address bits 47:12 unchanged, and each output bit is a copy of one
address bit. -/
def Obligations.PackedResultIsThePageNumber : Prop :=
  ∀ (a : VirtualAddress) (s : State), ∃ t, evaluate .addressDecomposer a s = .next t ∧
    t.packed = a.extractLsb' 12 36 ∧
    ∀ k < 9, t.idxL4.getLsbD k = a.getLsbD (39 + k) ∧ t.idxL3.getLsbD k = a.getLsbD (30 + k) ∧
      t.idxL2.getLsbD k = a.getLsbD (21 + k) ∧ t.idxL1.getLsbD k = a.getLsbD (12 + k)

/-- R45 whole: the packed form has L4 in bits 35:27, L3 in 26:18, L2 in 17:9 and L1 in 8:0, and is a view of
the four ports: packing and unpacking lose nothing; of a result it is the address bits 47:12. -/
def Obligations.PackedFormIsAView : Prop :=
  (∀ s : State, s.packed.extractLsb' 27 9 = s.idxL4 ∧ s.packed.extractLsb' 18 9 = s.idxL3 ∧
    s.packed.extractLsb' 9 9 = s.idxL2 ∧ s.packed.extractLsb' 0 9 = s.idxL1) ∧
  (∀ t : IndexTuple, unpack (pack t) = t) ∧ (∀ p : BitVec 36, pack (unpack p) = p) ∧
  (∀ a : VirtualAddress, pack (computeIndices a) = a.extractLsb' 12 36)

/-- R44: the result is exactly four fields in the order (L4, L3, L2, L1), element 0 being L4 and
element 3 being L1, each in [0, 511]. -/
def Obligations.ResultElementsAreInOrder : Prop :=
  ∀ (a : VirtualAddress) (s : State), ∃ t, evaluate .addressDecomposer a s = .next t ∧
    (elements t.outputs).length = 4 ∧
    (elements t.outputs)[0]? = some (a.extractLsb' 39 9) ∧
    (elements t.outputs)[1]? = some (a.extractLsb' 30 9) ∧
    (elements t.outputs)[2]? = some (a.extractLsb' 21 9) ∧
    (elements t.outputs)[3]? = some (a.extractLsb' 12 9) ∧
    ∀ f ∈ elements t.outputs, f.toNat < 512

/-- R46: a consumer that holds a field in more than 9 bits holds it zero-extended. -/
def Obligations.WiderCopyIsZeroExtended : Prop :=
  ∀ (n : Nat) (f : Index), 9 < n → (widen n f).toNat = f.toNat ∧
    (∀ k, 9 ≤ k → (widen n f).getLsbD k = false) ∧
    ∀ k < 9, (widen n f).getLsbD k = f.getLsbD k

/-- R66: the tuple and the 12 offset bits give back the address bits 47:0; two addresses have the same
tuple exactly when they agree on bits 47:12; every tuple is the result of some address. -/
def Obligations.RecompositionGivesBackTheAddress : Prop :=
  (∀ (a : VirtualAddress) (s : State), ∃ t, evaluate .addressDecomposer a s = .next t ∧
    recompose t.outputs (a.extractLsb' 0 12) = a.extractLsb' 0 48) ∧
  (∀ (a b : VirtualAddress) (s : State), ∃ t t', evaluate .addressDecomposer a s = .next t ∧
    evaluate .addressDecomposer b s = .next t' ∧
    (t.outputs = t'.outputs ↔ a.extractLsb' 12 36 = b.extractLsb' 12 36)) ∧
  (∀ (r : IndexTuple) (s : State), ∃ t,
    evaluate .addressDecomposer ((recompose r 0).setWidth 64) s = .next t ∧ t.outputs = r)

/-- R8: shift and mask, slice, and quotient and remainder say the same, for every shift with
`s + 8 ≤ 63`. -/
def Obligations.ShiftMaskSliceAndDivisionAgree : Prop :=
  ∀ s, s + 8 ≤ 63 → ∀ a : VirtualAddress,
    ((a >>> s) &&& 0x1FF).toNat = a.toNat / 2 ^ s % 512 ∧
    (a.extractLsb' s 9).toNat = a.toNat / 2 ^ s % 512 ∧
    (extractField s a).toNat = a.toNat / 2 ^ s % 512

/-- R67, R4: the model's own shift amounts and mask: they are 12, 21, 30, 39 and 511, the shifts below
the width; the mask is the remainder by 512; the shifted value is the floor of the division and at most
2^(64-s) - 1; and the extraction is the one after the other, with nothing lost. -/
def Obligations.ShiftAndMaskAreArithmetic : Prop :=
  (shift .l1 = 12 ∧ shift .l2 = 21 ∧ shift .l3 = 30 ∧ shift .l4 = 39 ∧ ∀ l, shift l < 64) ∧
  (∀ v : VirtualAddress, (v &&& BitVec.ofNat 64 indexMask).toNat = v.toNat % 512) ∧
  (∀ (l : Level) (a : VirtualAddress),
    (a >>> shift l).toNat = a.toNat / 2 ^ (12 + 9 * (l.number - 1)) ∧
    (a >>> shift l).toNat ≤ 2 ^ (64 - (12 + 9 * (l.number - 1))) - 1 ∧
    (ptIndex l a).toNat = (a >>> shift l).toNat % 512 ∧
    (ptIndex l a).toNat = a.toNat / 2 ^ (12 + 9 * (l.number - 1)) % 512) ∧
  (∀ (s : Nat) (a : VirtualAddress), (extractField s a).toNat = a.toNat / 2 ^ s % 512)

/-- R68: `d` pages further on, the packed result is `d` more, modulo 2^36. -/
def Obligations.SteppingByPagesCountsUp : Prop :=
  ∀ (a : VirtualAddress) (d : Nat) (s : State), ∃ t t',
    evaluate .addressDecomposer a s = .next t ∧
    evaluate .addressDecomposer (BitVec.ofNat 64 ((a.toNat + d * 4096) % 2 ^ 64)) s = .next t' ∧
    t.packed = pageNumber a ∧ t'.packed.toNat = (t.packed.toNat + d) % 2 ^ 36

/-- R72: of an address kept in only `w < 64` bits and handed over zero-extended, the field of a level
is complete when `w ≥ s + 9`, 0 when `w ≤ s`, and otherwise its low `w - s` bits. -/
def Obligations.NarrowSourceTruncatesFields : Prop :=
  ∀ (w : Nat) (v : BitVec w) (a : VirtualAddress) (l : Level) (s : State), w < 64 →
    v = a.setWidth w → ∃ t, evaluate .addressDecomposer (v.setWidth 64) s = .next t ∧
      (shift l + 9 ≤ w → t.output l = ptIndex l a) ∧
      (w ≤ shift l → t.output l = 0) ∧
      (shift l < w → w < shift l + 9 →
        (t.output l).toNat = (ptIndex l a).toNat % 2 ^ (w - shift l)) ∧
      (48 ≤ w → t.outputs = computeIndices a)

/-- R55: an implementation with a wider integer ignores every bit above 47, however many there are;
at 64 bits it is the block. -/
def Obligations.WiderIntegersIgnoreBitsAbove47 : Prop :=
  (∀ (w : Nat) (a : BitVec w), 64 ≤ w → computeIndicesOfWidth a = computeIndices (a.setWidth 64)) ∧
  (∀ (w : Nat) (a b : BitVec w), 64 ≤ w → (∀ i ≤ 47, a.getLsbD i = b.getLsbD i) →
    computeIndicesOfWidth a = computeIndicesOfWidth b) ∧
  (∀ a : BitVec 64, computeIndicesOfWidth a = computeIndices a)

/-! ## The sub-unit and its instances -/

/-- R43: each field is taken by its fixed shift and the mask; bit `k` of the field is bit `shift + k`
of the address, and nothing else happens to it; the four constants of the rule's table. -/
def Obligations.FieldBitsAreAddressBits : Prop :=
  shift .l1 = 12 ∧ shift .l2 = 21 ∧ shift .l3 = 30 ∧ shift .l4 = 39 ∧
  ∀ (l : Level) (a : VirtualAddress) (s : State), ∃ t,
    evaluate .addressDecomposer a s = .next t ∧
    t.output l = ((a >>> shift l) &&& 0x1FF).setWidth 9 ∧
    t.output l = a.extractLsb' (shift l) 9 ∧
    (t.output l).toNat = a.toNat / 2 ^ shift l % 512 ∧
    ∀ k < 9, (t.output l).getLsbD k = a.getLsbD (shift l + k)

/-- R73: the unit of one level, used alone: its one output is the level's index of the word, in the
closed form of the shift `12 + 9 * (n - 1)`; its input is as it was. -/
def Obligations.ExtractorDrivesItsLevel : Prop :=
  shift .l1 = 12 ∧ shift .l2 = 21 ∧ shift .l3 = 30 ∧ shift .l4 = 39 ∧
  ∀ (l : Level) (s : State), shift l = 12 + 9 * (l.number - 1) ∧
    1 ≤ l.number ∧ l.number ≤ 4 ∧
    ∃ t, stepOf (.pageTableIndexExtractor l) s = .next t ∧
      t.output l = ((s.vaddr >>> shift l) &&& 0x1FF).setWidth 9 ∧
      t.output l = s.vaddr.extractLsb' (12 + 9 * (l.number - 1)) 9 ∧
      t.ports (.pageTableIndexExtractor l) = [(l, t.output l)] ∧ t.vaddr = s.vaddr

/-- R74: the block is exactly its four instances, all fed the same `vaddr`: its ports are theirs, one for
each level, and the tuple on them is the four levels' indices of the word. The first clause is the
model's reading of it in terms of operations (log 6): carrying out the component extractions of one
word, in any order and any number of times each, as long as each of the four levels occurs, is
`compute_indices` of it. -/
def Obligations.BlockIsItsFourInstances : Prop :=
  (∀ (ls : List Level) (a : VirtualAddress) (s : State), (∀ l, l ∈ ls) →
    execAll (ls.map fun l => extraction l a) s = exec (.computeIndices a) s) ∧
  (∀ s : State, s.ports .addressDecomposer
    = [.l4, .l3, .l2, .l1].flatMap fun l => s.ports (.pageTableIndexExtractor l)) ∧
  (∀ l : Level, (drivenLevels .addressDecomposer).count l = 1) ∧
  (∀ (a : VirtualAddress) (s : State), ∃ t, evaluate .addressDecomposer a s = .next t ∧
    t.outputs = ⟨ptIndex .l4 a, ptIndex .l3 a, ptIndex .l2 a, ptIndex .l1 a⟩)

/-- R79: a level outside 1 to 4 has no instance and is refused; the four levels are not. -/
def Obligations.OtherLevelsAreRefused : Prop :=
  (∀ (n : Nat), n < 1 ∨ 4 < n → ∀ (a : VirtualAddress) (s : State),
    ptIndexOfNumber n a = .error (.noSuchLevel n) ∧
    presentCall (.ptIndex n a.toNat) s = .refused (.notAnInput (.noSuchLevel n))) ∧
  (∀ (l : Level) (a : VirtualAddress), ptIndexOfNumber l.number a = .ok (ptIndex l a))

/-- R80: each instance reads only its own nine bits, and the four sets are disjoint; so each output can be set to any of its 512
values without disturbing the other three; and an instance used alone gives what it gives inside the
block. -/
def Obligations.InstancesAreIndependent : Prop :=
  (∀ (l : Level) (a b : VirtualAddress),
    (∀ k < 9, a.getLsbD (shift l + k) = b.getLsbD (shift l + k)) → ptIndex l a = ptIndex l b) ∧
  (∀ (l : Level) (v : Index) (a : VirtualAddress) (s : State), ∃ b t t',
    evaluate .addressDecomposer a s = .next t ∧ evaluate .addressDecomposer b s = .next t' ∧
    t'.output l = v ∧ ∀ l', l' ≠ l → t'.output l' = t.output l') ∧
  (∀ (l : Level) (a : VirtualAddress) (s : State), ∃ t t' v,
    evaluate .addressDecomposer a s = .next t ∧
    evaluate (.pageTableIndexExtractor l) a s = .next t' ∧
    (l, v) ∈ t.ports .addressDecomposer ∧ t'.ports (.pageTableIndexExtractor l) = [(l, v)]) ∧
  (∀ (l l' : Level) (k k' : Nat), l ≠ l' → k < 9 → k' < 9 → shift l + k ≠ shift l' + k')

/-! ## No state, no time -/

/-- R32, R98, R99, R105: at every moment, in every state, each port of each unit carries the field of the
word on `vaddr`; so it does after every step, which leaves `vaddr` as it was, and at the very moment the
environment drives another word, before any step. -/
def Obligations.StepSettlesAndKeepsSettled : Prop :=
  (∀ u s, Settled u s) ∧
  (∀ u s t, Settled u s → stepOf u s = .next t → Settled u t ∧ t.vaddr = s.vaddr) ∧
  (∀ s t, step s = .next t → Settled .addressDecomposer t) ∧
  (∀ (s : State) (a : VirtualAddress) (l : Level),
    (s.drive a).output l = a.extractLsb' (12 + 9 * (l.number - 1)) 9) ∧
  (∀ s : State, s.outputs = ⟨s.vaddr.extractLsb' 39 9, s.vaddr.extractLsb' 30 9,
    s.vaddr.extractLsb' 21 9, s.vaddr.extractLsb' 12 9⟩)

/-- R25, R98: right after reset every unit's outputs are the function of `vaddr`. That `vaddr` itself
is 0 is the model's choice (log 3). -/
def Obligations.ResetIsSettled : Prop :=
  (∀ u, Settled u State.reset) ∧ State.reset.outputs = computeIndices State.reset.vaddr

/-- R33, R99: every state is settled and at rest: no step of any unit changes anything, so the outputs do
not wait for one. -/
def Obligations.SettledMeansAtRest : Prop :=
  ∀ s : State, Settled .addressDecomposer s ∧ (Settled .addressDecomposer s ↔ step s = .next s) ∧
    ∀ u, stepOf u s = .next s

/-- R33, R105: while `vaddr` is held, any number of steps gives what one gives, and the outputs stay what
they are. -/
def Obligations.HoldingTheInputHoldsTheOutputs : Prop :=
  ∀ (n : Nat) (s : State), Host.Core.run Sys2Proof.core (n + 1) s = step s ∧
    ∃ t, Host.Core.run Sys2Proof.core n s = .next t ∧ t.vaddr = s.vaddr ∧ t.outputs = s.outputs

/-- R15, R24, R27: the block keeps nothing. The interface at any moment is determined by the word on
`vaddr`, so the outputs, a step and an evaluation are; a later input leaves no trace of an earlier
one. -/
def Obligations.BlockRemembersNothing : Prop :=
  (∀ s s' : State, s.vaddr = s'.vaddr → s = s' ∧ s.outputs = s'.outputs) ∧
  Memoryless step ∧
  (∀ a, ∀ s s' : State, evaluate .addressDecomposer a s = evaluate .addressDecomposer a s') ∧
  (∀ (a b : VirtualAddress) (s : State), (s.drive b).drive a = s.drive a)

/-- R100: no warm-up and no first evaluation that differs from later ones: after any evaluations, the
next one replies as it would as the first after reset. -/
def Obligations.NoFirstEvaluationDiffers : Prop :=
  ∀ (rs : List Request) (r : Request) (s : State),
    serve (rs ++ [r]) s = serve rs s ++ serve [r] State.reset

/-- R36, R93: contexts that take turns on one instance each see exactly `compute_indices` of the
addresses they presented, in the order they presented them, whatever the others presented in
between. -/
def Obligations.EachContextSeesItsOwnResults : Prop :=
  ∀ (c : Nat) (rs : List Request) (s : State),
    (serve rs s).length = rs.length ∧
    repliesTo c (serve rs s) = (addressesOf c rs).map computeIndices

/-- R36, R93: what a context sees does not depend on what the others present, nor on what was on
`vaddr` at the start. -/
def Obligations.ContextsDoNotInterfere : Prop :=
  ∀ (c : Nat) (rs rs' : List Request) (s s' : State), addressesOf c rs = addressesOf c rs' →
    repliesTo c (serve rs s) = repliesTo c (serve rs' s')

/-- R93: one shared instance and an instance for each context give the same replies. -/
def Obligations.SharedAndSeparateInstancesAgree : Prop :=
  ∀ (rs : List Request) (s : State) (own : Nat → State), serve rs s = serveApart rs own

/-! ## The host interface -/

/-- R26, R101, D12: wires are evaluated exactly when they are an input word, with the word they carry;
otherwise they are refused as no input, and nothing is evaluated. -/
def Obligations.UndrivenWiresAreRefused : Prop :=
  (∀ (u : HwUnit) (ws : List Wire) (s : State),
    wiresWellFormed ws = true ↔ Completes (presentWires u ws s)) ∧
  (∀ (u : HwUnit) (ws : List Wire) (s : State), wiresWellFormed ws = false →
    ∃ r, presentWires u ws s = .refused (.notAnInput r)) ∧
  (∀ (i : Instr) (s : State), presentWires i.unit (encode i) s = evaluate i.unit i.word s)

/-- R52, R53, R79, D13, U7: a well-formed call is evaluated by the unit it names, every other call is
refused by name: a level outside 1 to 4 by that level, whatever the number (that it is named first is the
model's choice, log 10); at a level that exists and for `compute_indices`, a negative number and a number
that does not fit, each by its name. -/
def Obligations.CallsAreEvaluatedOrRefused : Prop :=
  (∀ (i : Instr) (s : State), presentCall i.call s = exec i (s.drive i.word)) ∧
  (∀ (c : Call) (s : State), c.wellFormed = true ↔ Completes (presentCall c s)) ∧
  (∀ (c : Call) (s : State), c.wellFormed = false →
    ∃ r, presentCall c s = .refused (.notAnInput r)) ∧
  (∀ (n : Nat) (v : Int) (s : State), n < 1 ∨ 4 < n →
    presentCall (.ptIndex n v) s = .refused (.notAnInput (.noSuchLevel n))) ∧
  (∀ (v : Int) (s : State), v < 0 →
    presentCall (.computeIndices v) s = .refused (.notAnInput .negative) ∧
    ∀ n, 1 ≤ n → n ≤ 4 → presentCall (.ptIndex n v) s = .refused (.notAnInput .negative)) ∧
  (∀ (v : Int) (s : State), 2 ^ 64 ≤ v →
    presentCall (.computeIndices v) s = .refused (.notAnInput .doesNotFit) ∧
    ∀ n, 1 ≤ n → n ≤ 4 → presentCall (.ptIndex n v) s = .refused (.notAnInput .doesNotFit))

/-- D10: a number below 2^w, for any `w` up to 64, is presented zero-extended. -/
def Obligations.NarrowNumbersAreZeroExtended : Prop :=
  ∀ (w : Nat) (v : BitVec w), w ≤ 64 →
    decodeCall (.computeIndices v.toNat) = .ok (.computeIndices (v.setWidth 64)) ∧
    narrowed w (v.setWidth 64) = v.setWidth 64
end

