-- ==== Sys2Proof/Laws/Decode.lean ====
section
/-! SUPPORT. The wires of a word and back, one lemma per function. -/

namespace Sys2Proof

@[simp] theorem decodeWord_unit (u : HwUnit) (w : VirtualAddress) : (decodeWord u w).unit = u := by
  cases u with
  | addressDecomposer => rfl
  | pageTableIndexExtractor l => cases l <;> rfl

@[simp] theorem decodeWord_word (u : HwUnit) (w : VirtualAddress) : (decodeWord u w).word = w := by
  cases u with
  | addressDecomposer => rfl
  | pageTableIndexExtractor l => cases l <;> rfl

/-- Driven wires give their bits. -/
theorem bitsOfWires_ofBool (bs : List Bool) (i : Nat) :
    bitsOfWires i (bs.map Wire.ofBool) = .ok bs := by
  induction bs generalizing i with
  | nil => rfl
  | cons b bs ih => cases b <;> simp [bitsOfWires, Wire.ofBool, ih, Except.map]

/-- Where a bundle gives bits, every wire was the driven wire of its bit. -/
theorem wires_of_bitsOfWires {ws : List Wire} {i : Nat} {bs : List Bool}
    (h : bitsOfWires i ws = .ok bs) : ws = bs.map Wire.ofBool := by
  induction ws generalizing i bs with
  | nil => cases h; rfl
  | cons w ws ih =>
    cases hr : bitsOfWires (i + 1) ws with
    | error r => cases w <;> simp [bitsOfWires, hr, Except.map] at h
    | ok cs =>
      have hw := ih hr
      cases w <;> simp [bitsOfWires, hr, Except.map] at h <;> subst h <;> simp [Wire.ofBool, hw]

/-- Bit `k` of the number of a list of bits. -/
theorem natOfBits_testBit (bs : List Bool) (k : Nat) :
    (natOfBits bs).testBit k = bs.getD k false := by
  induction bs generalizing k with
  | nil => simp [natOfBits]
  | cons b bs ih =>
    cases k with
    | zero => cases b <;> simp [natOfBits, Nat.testBit_zero]
    | succ k =>
      have hd : (b.toNat + 2 * natOfBits bs) / 2 = natOfBits bs := by cases b <;> simp; omega
      simp only [natOfBits, Nat.testBit_succ, hd, ih, List.getD_cons_succ]

/-- The first wire that is not driven is the one a bundle is refused for. -/
theorem bitsOfWires_error {ws : List Wire} {i : Nat} (k : Nat)
    (hk : ∃ w ∈ ws[k]?, w.isDriven = false) (hj : ∀ j < k, ∀ w ∈ ws[j]?, w.isDriven = true) :
    bitsOfWires i ws = .error (.notDriven (i + k)) := by
  induction ws generalizing i k with
  | nil => simp at hk
  | cons w ws ih =>
    cases k with
    | zero =>
      simp at hk
      cases w <;> simp_all [Wire.isDriven, bitsOfWires]
    | succ k =>
      have h0 := hj 0 (by omega) w (by simp)
      have hr := ih (i := i + 1) k (by simpa using hk)
        fun j hjk w hw => hj (j + 1) (by omega) w (by simpa using hw)
      cases w <;> simp_all [Wire.isDriven, bitsOfWires, Except.map] <;> omega

/-- A bundle gives bits exactly when every wire is driven. -/
theorem bitsOfWires_ok_iff (ws : List Wire) (i : Nat) :
    (∃ bs, bitsOfWires i ws = .ok bs) ↔ ws.all Wire.isDriven = true := by
  induction ws generalizing i with
  | nil => simp [bitsOfWires]
  | cons w ws ih =>
    have hr := ih (i + 1)
    cases h : bitsOfWires (i + 1) ws <;> cases w <;>
      simp_all [bitsOfWires, Wire.isDriven, Except.map]

/-- A bundle gives a word exactly when it is an input word. -/
theorem wordOfWires_ok_iff (ws : List Wire) :
    (∃ a, wordOfWires ws = .ok a) ↔ wiresWellFormed ws = true := by
  have hb := bitsOfWires_ok_iff ws 0
  unfold wordOfWires wiresWellFormed
  rw [Bool.and_eq_true, ← hb]
  by_cases hl : ws.length = 64
  · cases h : bitsOfWires 0 ws <;> simp [hl, Except.map, Config.vaWidth]
  · simp [hl, Config.vaWidth]

/-- The wires of a word give back the word. -/
theorem wordOfWires_of_word (a : VirtualAddress) :
    wordOfWires ((List.range Config.vaWidth).map fun k => Wire.ofBool (a.getLsbD k)) = .ok a := by
  have hw : ((List.range 64).map fun k => Wire.ofBool (a.getLsbD k))
      = ((List.range 64).map fun k => a.getLsbD k).map Wire.ofBool := by
    rw [List.map_map]; rfl
  unfold wordOfWires
  rw [hw, bitsOfWires_ofBool]
  simp only [List.length_map, List.length_range, if_true, Except.map]
  refine congrArg Except.ok ?_
  apply BitVec.eq_of_getLsbD_eq
  intro i hi
  rw [BitVec.getLsbD_ofNat, natOfBits_testBit]
  simp [hi]

/-- The wires of a number below 2^64 are those of its word. -/
theorem wiresOfNat_toNat (a : VirtualAddress) :
    wiresOfNat 64 a.toNat
      = (List.range Config.vaWidth).map fun k => Wire.ofBool (a.getLsbD k) := by
  unfold wiresOfNat
  apply List.map_congr_left
  intro k hk
  have hlt : k < 64 := by simpa using hk
  simp [hlt, BitVec.getLsbD]

/-- An integer is accepted exactly when it is an address. -/
theorem addressOfInt_ok_iff (v : Int) :
    (∃ a, addressOfInt v = .ok a) ↔ addressWellFormed v = true := by
  unfold addressOfInt addressWellFormed
  by_cases h : v < 0
  · simp [h]
  · by_cases h2 : (2 : Int) ^ Config.vaWidth ≤ v
    · simp [h, h2]
    · simp [h, h2]; omega

/-- A word's number is that word. -/
theorem addressOfInt_toNat (a : VirtualAddress) : addressOfInt (a.toNat : Int) = .ok a := by
  have hlt : ((a.toNat : Int)) < 2 ^ 64 := by exact_mod_cast a.isLt
  unfold addressOfInt
  rw [if_neg (by omega), if_neg (by simp only [Config.vaWidth]; omega)]
  simp

end Sys2Proof
end

