-- ==== Sys2Proof/Laws/Operands.lean ====
section
/-! SUPPORT. What the field extraction gives, bit by bit and as a number; later proofs cite these and
do not unfold it. -/

namespace Sys2Proof.Machine

/-- The mask has exactly its low nine bits set. -/
theorem indexMask_testBit (k : Nat) : indexMask.testBit k = decide (k < 9) := by
  have h : indexMask = 2 ^ 9 - 1 := rfl
  rw [h, Nat.testBit_two_pow_sub_one]

/-- Bit `k` of a field is bit `s + k` of the address, for the nine `k` below 9 (30_encoding.md R43). -/
theorem extractField_getLsbD {w : Nat} (s : Nat) (a : BitVec w) (k : Nat) :
    (extractField s a).getLsbD k = (decide (k < 9) && a.getLsbD (s + k)) := by
  unfold extractField
  rw [BitVec.getLsbD_setWidth, BitVec.getLsbD_and, BitVec.getLsbD_ushiftRight,
    BitVec.getLsbD_ofNat, indexMask_testBit]
  by_cases hk : k < 9 <;> by_cases hw : k < w <;> simp [hk, hw]
  exact BitVec.getLsbD_of_ge _ _ (by omega)

/-- Bit `k` of a page-table index. -/
theorem ptIndex_getLsbD (l : Level) (a : VirtualAddress) (k : Nat) :
    (ptIndex l a).getLsbD k = (decide (k < 9) && a.getLsbD (shift l + k)) :=
  extractField_getLsbD _ _ _

/-- A field is the slice of nine address bits from its shift amount up. -/
theorem extractField_slice {w : Nat} (s : Nat) (a : BitVec w) :
    extractField s a = a.extractLsb' s 9 := by
  apply BitVec.eq_of_getLsbD_eq
  intro k hk
  rw [extractField_getLsbD, BitVec.getLsbD_extractLsb']

/-- A page-table index is the slice of its nine bits. -/
theorem ptIndex_slice (l : Level) (a : VirtualAddress) : ptIndex l a = a.extractLsb' (shift l) 9 :=
  extractField_slice _ _

/-- A page-table index as a number. -/
theorem ptIndex_toNat (l : Level) (a : VirtualAddress) :
    (ptIndex l a).toNat = a.toNat / 2 ^ shift l % 512 := by
  rw [ptIndex_slice, BitVec.extractLsb'_toNat, Nat.shiftRight_eq_div_pow]

/-- Two addresses give the same field when they agree on its nine bits. -/
theorem ptIndex_congr {l : Level} {a b : VirtualAddress}
    (h : ∀ k < 9, a.getLsbD (shift l + k) = b.getLsbD (shift l + k)) :
    ptIndex l a = ptIndex l b := by
  apply BitVec.eq_of_getLsbD_eq
  intro k hk
  rw [ptIndex_getLsbD, ptIndex_getLsbD, h k hk]

@[simp] theorem field_computeIndices (a : VirtualAddress) (l : Level) :
    field (computeIndices a) l = ptIndex l a := by cases l <;> rfl

/-- Two tuples are the same when the fields of every level agree. -/
theorem tuple_ext {t t' : IndexTuple} (h : ∀ l, field t l = field t' l) : t = t' := by
  have h4 := h .l4
  have h3 := h .l3
  have h2 := h .l2
  have h1 := h .l1
  cases t
  cases t'
  simp_all [field]

/-- The shift amounts in closed form (41 R73). -/
theorem shift_eq_number (l : Level) : shift l = 12 + 9 * (l.number - 1) := by cases l <;> rfl

theorem shift_bounds (l : Level) : 12 ≤ shift l ∧ shift l + 9 ≤ 48 := by
  cases l <;> decide

/-- The nine-bit ranges of two different levels are disjoint. -/
theorem shift_disjoint {l l' : Level} (h : l ≠ l') (k k' : Nat) (hk : k < 9) (hk' : k' < 9) :
    shift l + k ≠ shift l' + k' := by
  cases l <;> cases l' <;> simp_all [shift] <;> omega

end Sys2Proof.Machine
end

