-- ==== Sys2Proof/Laws/State.lean ====
section
/-! SUPPORT. One lemma per update of State and per view of it, so that no later proof unfolds a record
update or the wiring of a port. -/

namespace Sys2Proof.Machine

variable (s : State) (a b : VirtualAddress) (u : HwUnit) (l : Level)

@[simp] theorem State.drive_vaddr : (s.drive a).vaddr = a := rfl
@[simp] theorem State.drive_drive : (s.drive a).drive b = s.drive b := rfl
@[simp] theorem State.drive_self : s.drive s.vaddr = s := rfl
@[simp] theorem State.fetch_eq : s.fetch = s.vaddr := rfl

theorem State.idxL4_eq : s.idxL4 = ptIndex .l4 s.vaddr := rfl
theorem State.idxL3_eq : s.idxL3 = ptIndex .l3 s.vaddr := rfl
theorem State.idxL2_eq : s.idxL2 = ptIndex .l2 s.vaddr := rfl
theorem State.idxL1_eq : s.idxL1 = ptIndex .l1 s.vaddr := rfl

/-- The output of a level is its index of the word on `vaddr`, at every moment. -/
theorem State.output_eq : s.output l = ptIndex l s.vaddr := by cases l <;> rfl

@[simp] theorem State.outputs_l4 : s.outputs.l4 = s.idxL4 := rfl
@[simp] theorem State.outputs_l3 : s.outputs.l3 = s.idxL3 := rfl
@[simp] theorem State.outputs_l2 : s.outputs.l2 = s.idxL2 := rfl
@[simp] theorem State.outputs_l1 : s.outputs.l1 = s.idxL1 := rfl
@[simp] theorem State.field_outputs : field s.outputs l = s.output l := by cases l <;> rfl

/-- The tuple on the outputs is `compute_indices` of the word on `vaddr`, at every moment. -/
theorem State.outputs_eq : s.outputs = computeIndices s.vaddr := rfl

/-- The ports of a unit carry the indices of the word on `vaddr`, at every moment. -/
theorem State.ports_eq : s.ports u = (drivenLevels u).map fun l => (l, ptIndex l s.vaddr) := by
  simp [State.ports, State.output_eq]

/-- Two states are the same when the same word is on `vaddr`. -/
theorem State.ext_vaddr {s s' : State} (h : s.vaddr = s'.vaddr) : s = s' := by
  cases s
  cases s'
  exact congrArg State.mk h

end Sys2Proof.Machine
end

