-- ==== Sys2Proof/Laws/Exec.lean ====
section
/-! SUPPORT. What an operation, a step, an evaluation and a presentation can do, said once each. -/

namespace Sys2Proof.Machine

variable (i : Instr) (a : VirtualAddress) (s : State) (u : HwUnit)

/-- Everything an operation can do to the interface: its operand stands on `vaddr`. -/
theorem exec_eq : exec i s = .next (s.drive i.word) := by cases i <;> rfl

/-- Everything a step of a unit can do: nothing. -/
theorem stepOf_eq : stepOf u s = .next s := by
  rw [stepOf, exec_eq, decodeWord_word, State.fetch_eq, State.drive_self]

/-- Everything a step of the block can do: nothing. -/
theorem step_eq : step s = .next s := stepOf_eq _ _

/-- Everything a presentation of an address to a unit can do. -/
theorem evaluate_eq : evaluate u a s = .next (s.drive a) := stepOf_eq _ _

/-- What it takes for two addresses to give the same on every port of every unit. -/
theorem SameOutputs.of_ptIndex {a b : VirtualAddress} (h : ∀ l, ptIndex l a = ptIndex l b) :
    SameOutputs a b := by
  intro u s
  refine ⟨_, _, evaluate_eq a s u, evaluate_eq b s u, ?_⟩
  simp [State.ports_eq, h]

/-- Addresses that agree on bits 47:12 give the same on every port of every unit. -/
theorem SameOutputs.of_bits {a b : VirtualAddress}
    (h : ∀ i, 12 ≤ i → i ≤ 47 → a.getLsbD i = b.getLsbD i) : SameOutputs a b := by
  refine SameOutputs.of_ptIndex fun l => ptIndex_congr fun k hk => ?_
  have hb := shift_bounds l
  exact h _ (by omega) (by omega)

end Sys2Proof.Machine
end

