-- ==== Sys2Proof/Laws/PerInstr.lean ====
section
/-! SUPPORT. Facts about every operation as syntax, one lemma per constructor. -/

namespace Sys2Proof.Laws.EncodesFullDrivenWord

/-- The encoding of an operation is an input of the block: 64 wires, each driven with a defined
value (30_encoding.md R54, 70 R101). -/
def Statement (i : Instr) : Prop :=
  wiresWellFormed (encode i) = true

/-- The wires of any word are an input of the block. -/
theorem wires_of_word (a : VirtualAddress) :
    wiresWellFormed ((List.range Config.vaWidth).map fun k => Wire.ofBool (a.getLsbD k)) = true := by
  simp only [wiresWellFormed, List.length_map, List.length_range, beq_self_eq_true, Bool.true_and,
    List.all_eq_true, List.mem_map, List.mem_range]
  rintro w ⟨k, -, rfl⟩
  cases a.getLsbD k <;> rfl

theorem computeIndices (a : VirtualAddress) : Statement (.computeIndices a) := wires_of_word a
theorem ptIndexL4 (a : VirtualAddress) : Statement (.ptIndexL4 a) := wires_of_word a
theorem ptIndexL3 (a : VirtualAddress) : Statement (.ptIndexL3 a) := wires_of_word a
theorem ptIndexL2 (a : VirtualAddress) : Statement (.ptIndexL2 a) := wires_of_word a
theorem ptIndexL1 (a : VirtualAddress) : Statement (.ptIndexL1 a) := wires_of_word a

end Sys2Proof.Laws.EncodesFullDrivenWord
end

