-- ==== Sys2Proof/Tests/Slice0.lean ====
section
/-! SUPPORT. The model's own tests: the checks of WellFormed, words written out bit by bit, the
spec's vectors (95_test_vectors.md), and for every statement with hypotheses a concrete case that
meets them. Expected results are the spec's. -/

namespace Sys2Proof.Tests

open Sys2Proof Sys2Proof.Machine

/-! ## Every check of WellFormed refuses an ill-formed term -/

/-- 64 driven wires, all low. -/
def lows (n : Nat) : List Wire := List.replicate n .low

theorem test_wires_accepted : wiresWellFormed (lows 64) = true := by decide
theorem test_wires_too_few : wiresWellFormed (lows 63) = false := by decide
theorem test_wires_too_many : wiresWellFormed (lows 65) = false := by decide
theorem test_wires_undriven : wiresWellFormed (.undriven :: lows 63) = false := by decide
theorem test_wires_unknown : wiresWellFormed (lows 63 ++ [.unknown]) = false := by decide
theorem test_address_bounds : addressWellFormed 0 = true ∧ addressWellFormed (2 ^ 64 - 1) = true ∧
    addressWellFormed (-1) = false ∧ addressWellFormed (2 ^ 64) = false := by decide
theorem test_call_levels : (Call.ptIndex 0 0).wellFormed = false ∧
    (Call.ptIndex 1 0).wellFormed = true ∧ (Call.ptIndex 4 0).wellFormed = true ∧
    (Call.ptIndex 5 0).wellFormed = false ∧ (Call.ptIndex 1 (-1)).wellFormed = false := by decide
theorem test_call_numbers : (Call.computeIndices (-1)).wellFormed = false ∧
    (Call.computeIndices (2 ^ 64)).wellFormed = false := by decide

/-! ## Decoding: words written out bit by bit, most significant bit first -/

/-- The wires of bits written most significant first, as the spec writes a word. -/
def wiresOfDigits (ds : List Nat) : List Wire :=
  ds.reverse.map fun d => if d = 0 then .low else .high

/-- 95_test_vectors.md, Program 1: HIGH, L4, L3, L2, L1, OFFSET of `0xFFFF80007FC01234`. -/
def program1Digits : List Nat :=
  [1, 1, 1, 1, 1, 1, 1, 1, 1, 1, 1, 1, 1, 1, 1, 1] ++ [1, 0, 0, 0, 0, 0, 0, 0, 0] ++
  [0, 0, 0, 0, 0, 0, 0, 0, 1] ++ [1, 1, 1, 1, 1, 1, 1, 1, 0] ++ [0, 0, 0, 0, 0, 0, 0, 0, 1] ++
  [0, 0, 1, 0, 0, 0, 1, 1, 0, 1, 0, 0]

theorem test_decode_compute_indices : decode .addressDecomposer (wiresOfDigits program1Digits)
    = .ok (.computeIndices 0xFFFF80007FC01234) := by decide
theorem test_decode_pt_index_l4 :
    decode (.pageTableIndexExtractor .l4) (wiresOfDigits program1Digits)
      = .ok (.ptIndexL4 0xFFFF80007FC01234) := by decide
theorem test_decode_pt_index_l3 :
    decode (.pageTableIndexExtractor .l3) (wiresOfDigits program1Digits)
      = .ok (.ptIndexL3 0xFFFF80007FC01234) := by decide
theorem test_decode_pt_index_l2 :
    decode (.pageTableIndexExtractor .l2) (wiresOfDigits program1Digits)
      = .ok (.ptIndexL2 0xFFFF80007FC01234) := by decide
theorem test_decode_pt_index_l1 :
    decode (.pageTableIndexExtractor .l1) (wiresOfDigits program1Digits)
      = .ok (.ptIndexL1 0xFFFF80007FC01234) := by decide
theorem test_va64_fields : VA64.ofWord 0xFFFF80007FC01234 = ⟨0xFFFF, 256, 1, 510, 1, 0x234⟩ := by
  decide
theorem test_refused_wires :
    decode .addressDecomposer (lows 63) = .error (.wrongWidth 63) ∧
    decode .addressDecomposer (lows 5 ++ [.undriven] ++ lows 58) = .error (.notDriven 5) ∧
    decode .addressDecomposer (lows 63 ++ [.unknown]) = .error (.notDriven 63) := by decide
/-- Two reasons at once: the width and the level are named first (log 10). -/
theorem test_refusal_order :
    decode .addressDecomposer (.undriven :: lows 10) = .error (.wrongWidth 11) ∧
    decodeCall (.ptIndex 0 (-1)) = .error (.noSuchLevel 0) := by decide
theorem test_refused_calls : decodeCall (.computeIndices (-1)) = .error .negative ∧
    decodeCall (.computeIndices (2 ^ 64)) = .error .doesNotFit ∧
    decodeCall (.ptIndex 5 0) = .error (.noSuchLevel 5) ∧
    decodeCall (.ptIndex 3 0x40000000) = .ok (.ptIndexL3 0x40000000) := by decide
theorem test_table_word : decodeTableWord 64 0x0000008080604005
    = some (.computeIndices 0x0000008080604005) := by decide
/-- The syntax of R52 (the source's worked case S2, its address in 16 digits). -/
theorem test_rendering : renderInstr (.computeIndices 0xABCD7F0012345678)
      = "compute_indices(0xABCD7F0012345678)" ∧ renderTuple ⟨0, 0, 0, 1⟩ = "(0, 0, 0, 1)" := by
  decide

/-- The first step after reset with a word of the table placed (log 5): S2. -/
theorem test_first_step_after_reset :
    step (State.reset.withFetchWord 64 0x1000) = .next ⟨0x1000⟩ := rfl
/-- The outputs follow the input at once, before any step (70 R105, R98). -/
theorem test_outputs_follow_at_once : (State.reset.drive 0x1000).outputs = ⟨0, 0, 0, 1⟩ ∧
    (State.reset.withFetchWord 64 0x1000).idxL1 = 1 ∧
    ((State.reset.drive 0x1000).drive 0x200000).outputs = ⟨0, 0, 1, 0⟩ := by decide

/-! ## The operations, one step each -/

/-- The tuple a step of the block puts on its outputs for the word `a`, from reset. -/
def outputsFor (a : VirtualAddress) : Option IndexTuple :=
  match step (State.reset.drive a) with
  | .next t => some t.outputs
  | .fault _ => none
  | .refused _ => none

/-- What the ports of the unit of an operation carry after it was carried out, from an interface that
carried all ones. -/
def portsAfter (i : Instr) : List (Level × Index) :=
  match exec i ⟨0xFFFFFFFFFFFFFFFF⟩ with
  | .next t => t.ports i.unit
  | .fault _ => []
  | .refused _ => []

/-- The six bit-exact cases of the source, S1 to S6. -/
theorem test_compute_indices_source_cases :
    ([0x0, 0x1000, 0x200000, 0x40000000, 0x8000000000, 0xFFFFFFFFFFFF].map outputsFor)
      = [some ⟨0, 0, 0, 0⟩, some ⟨0, 0, 0, 1⟩, some ⟨0, 0, 1, 0⟩, some ⟨0, 1, 0, 0⟩,
        some ⟨1, 0, 0, 0⟩, some ⟨511, 511, 511, 511⟩] := by decide
/-- Derived vectors V4, V10, V13, V18, V26. -/
theorem test_compute_indices_derived_vectors :
    ([0xFFFF000000000FFF, 0xFFFF800000000000, 0xDEADBEEFCAFEBABE, 0xFFFFFFFF80000000,
        0x0000008080604005].map outputsFor)
      = [some ⟨0, 0, 0, 0⟩, some ⟨256, 0, 0, 0⟩, some ⟨381, 447, 87, 491⟩, some ⟨511, 510, 0, 0⟩,
        some ⟨1, 2, 3, 4⟩] := by decide
/-- X22, X23, X24, X25, X28. -/
theorem test_pt_index_l4 : ([0x8000000000, 0x4000000000, 0x800000000000, 0x1000000000000, 0xFFFF007FFFFFFFFF].map fun a =>
      portsAfter (.ptIndexL4 a))
    = [[(.l4, 1)], [(.l4, 0)], [(.l4, 256)], [(.l4, 0)], [(.l4, 0)]] := by decide
/-- X15, X16, X17, X18, X21. -/
theorem test_pt_index_l3 : ([0x40000000, 0x20000000, 0x4000000000, 0x8000000000, 0xFFFFFF803FFFFFFF].map fun a =>
      portsAfter (.ptIndexL3 a))
    = [[(.l3, 1)], [(.l3, 0)], [(.l3, 256)], [(.l3, 0)], [(.l3, 0)]] := by decide
/-- X8, X9, X10, X11, X14. -/
theorem test_pt_index_l2 : ([0x200000, 0x100000, 0x20000000, 0x40000000, 0xFFFFFFFFC01FFFFF].map fun a =>
      portsAfter (.ptIndexL2 a))
    = [[(.l2, 1)], [(.l2, 0)], [(.l2, 256)], [(.l2, 0)], [(.l2, 0)]] := by decide
/-- X1, X2, X3, X4, X7. -/
theorem test_pt_index_l1 : ([0x1000, 0x800, 0x100000, 0x200000, 0xFFFFFFFFFFE00FFF].map fun a =>
      portsAfter (.ptIndexL1 a))
    = [[(.l1, 1)], [(.l1, 0)], [(.l1, 256)], [(.l1, 0)], [(.l1, 0)]] := by decide

/-! ## Views and laws on the spec's own values -/

/-- V12: the packed form of (36, 209, 179, 393). -/
theorem test_pack : pack ⟨36, 209, 179, 393⟩ = 0x123456789 ∧
    unpack 0x123456789 = ⟨36, 209, 179, 393⟩ := by decide
/-- Section 2.6, fourth row. -/
theorem test_recompose : recompose ⟨256, 256, 256, 256⟩ 0x123 = 0x804020100123 := by decide
/-- Section 2.5: `0x00007F0012345678` kept in 44, 24 and 16 bits. -/
theorem test_narrow_sources : ([44, 24, 16].map fun w => computeIndices (narrowed w 0x00007F0012345678))
    = [⟨30, 0, 145, 325⟩, ⟨0, 0, 1, 325⟩, ⟨0, 0, 0, 5⟩] := by decide
/-- Section 2.3, toggling table: bits 39, 20, 11 and 48 of V12. -/
theorem test_toggle_bits :
    ([39, 20, 11, 48].map fun i => computeIndices (toggleBit 0x0000123456789ABC i))
      = [⟨37, 209, 179, 393⟩, ⟨36, 209, 179, 137⟩, ⟨36, 209, 179, 393⟩, ⟨36, 209, 179, 393⟩] := by
  decide
/-- Program 5: two contexts on one instance. -/
theorem test_two_contexts :
    serve [⟨0, 0x0000123456789ABC⟩, ⟨1, 0xFFFFFFFFFFFFFFFF⟩, ⟨0, 0x0000123456789ABC⟩] State.reset
      = [⟨0, ⟨36, 209, 179, 393⟩⟩, ⟨1, ⟨511, 511, 511, 511⟩⟩, ⟨0, ⟨36, 209, 179, 393⟩⟩] := by decide

/-! ## Witnesses: the hypotheses of each statement that has some are met -/

theorem witness_DecodeOfEncodeIsTheOperation : (Instr.ptIndexL3 0x40000000).wellFormed = true := by
  decide
theorem witness_EncodeOfDecodeIsTheWires :
    decode .addressDecomposer (lows 64) = .ok (.computeIndices 0) := by decide
theorem witness_WiresDecodeExactlyWhenDriven :
    wiresWellFormed (lows 64) = true ∧ (lows 63).length ≠ 64 ∧ (lows 65).length ≠ 64 ∧
    (Wire.undriven :: lows 63).length = 64 ∧
    (∃ w ∈ (Wire.undriven :: lows 63)[0]?, w.isDriven = false) ∧
    (lows 63 ++ [Wire.unknown]).length = 64 ∧
    (∃ w ∈ (lows 63 ++ [Wire.unknown])[63]?, w.isDriven = false) ∧
    (∀ j < 63, ∀ w ∈ (lows 63 ++ [Wire.unknown])[j]?, w.isDriven = true) := by
  decide
theorem witness_StepOutputsAreTheVa64Fields :
    (State.reset.drive 0xFFFF80007FC01234).vaddr = VA64.toWord ⟨0xFFFF, 256, 1, 510, 1, 0x234⟩ := by
  decide
theorem witness_EveryWordMatchesEveryRow :
    (⟨"pt_index_l1", .pageTableIndexExtractor .l1, 0, 0, [.l1]⟩ : OpcodeRow) ∈ opcodeTable := by
  decide
theorem witness_StepRunsTheDecodedOperation :
    decode (.pageTableIndexExtractor .l2)
      (wiresOfNat 64 (State.reset.drive 0x200000).vaddr.toNat) = .ok (.ptIndexL2 0x200000) := by
  decide
theorem witness_PlacedWordRunsNext : (0 : Nat) < 2 ^ 64 ∧ (2 ^ 64 - 1 : Nat) < 2 ^ 64 := by decide
theorem witness_NonCanonicalAddressesAreOrdinary :
    pageNumber 0xFFFF800000000000 = pageNumber 0x0000800000000FFF := by decide
theorem witness_EachBitIsReadByExactlyOneField :
    readerOfBit 12 = some (.l1, 0) ∧ readerOfBit 47 = some (.l4, 8) ∧ readerOfBit 11 = none ∧
    readerOfBit 48 = none := by decide
theorem witness_TogglingABitChangesOneOutputBit :
    (12 ≤ 12 ∧ 12 ≤ 47) ∧ (12 ≤ 47 ∧ 47 ≤ 47) ∧ ((11 < 12 ∨ 47 < 11) ∧ 11 < 64) ∧
    ((48 < 12 ∨ 47 < 48) ∧ 48 < 64) ∧ ((63 < 12 ∨ 47 < 63) ∧ 63 < 64) := by decide
theorem witness_WiderCopyIsZeroExtended : 9 < 10 ∧ (widen 10 511).toNat = 511 := by decide
theorem witness_ShiftMaskSliceAndDivisionAgree : 0 + 8 ≤ 63 ∧ 55 + 8 ≤ 63 := by decide
/-- At `w` 48 and 47, 40, 39, 0: complete, truncated, gone. -/
theorem witness_NarrowSourceTruncatesFields :
    (48 < 64 ∧ shift .l4 + 9 ≤ 48 ∧ 48 ≤ 48) ∧ (shift .l4 < 47 ∧ 47 < shift .l4 + 9) ∧
    (shift .l4 < 40 ∧ 40 < shift .l4 + 9) ∧ 39 ≤ shift .l4 ∧ 0 ≤ shift .l1 ∧ 63 < 64 ∧
    (0x7FFFFFFFFFFF : BitVec 47) = (0xFFFFFFFFFFFF : VirtualAddress).setWidth 47 := by decide
theorem witness_WiderIntegersIgnoreBitsAbove47 :
    64 ≤ 65 ∧ ∀ i ≤ 47, (0x1000 : BitVec 65).getLsbD i
      = (0x10001000000001000 : BitVec 65).getLsbD i := by decide
theorem witness_BlockIsItsFourInstances :
    ∀ l : Level, l ∈ [Level.l1, .l3, .l1, .l2, .l4] := by
  intro l; cases l <;> decide
theorem witness_OtherLevelsAreRefused : (0 < 1 ∨ 4 < 0) ∧ (5 < 1 ∨ 4 < 5) := by decide
theorem witness_InstancesAreIndependent :
    (∀ k < 9, (0x1000 : VirtualAddress).getLsbD (shift .l1 + k)
      = (0xFFFFFFFFFFE01FFF : VirtualAddress).getLsbD (shift .l1 + k)) ∧ Level.l1 ≠ Level.l4 := by
  decide
theorem witness_StepSettlesAndKeepsSettled :
    step ⟨0x1000⟩ = .next ⟨0x1000⟩ ∧ stepOf (.pageTableIndexExtractor .l1) ⟨0x1000⟩ = .next ⟨0x1000⟩ ∧
    Settled .addressDecomposer ⟨0x1000⟩ ∧ Settled (.pageTableIndexExtractor .l1) ⟨0x1000⟩ := by
  refine ⟨rfl, rfl, ?_⟩; decide
theorem witness_SettledMeansAtRest : Settled .addressDecomposer ⟨0x0000123456789ABC⟩ := by decide
theorem witness_BlockRemembersNothing :
    (State.reset.drive 5).vaddr = ((State.reset.drive 6).drive 5).vaddr := by decide
theorem witness_EvaluationHasNoSideEffect :
    (⟨0x1000⟩ : State).vaddr = (Instr.ptIndexL1 0x1000).word := by decide
theorem witness_OperandStandsOnVaddr :
    (⟨0x1000⟩ : State).vaddr = (Instr.computeIndices 0x1000).word := by decide
theorem witness_ResultDependsOnTheAddressAlone : (State.reset.drive 5).vaddr = 5 := by decide
theorem witness_EveryFieldLiesInRange : 0 ≤ 511 ∧ 511 ≤ 511 := by decide
theorem witness_ContextsDoNotInterfere :
    addressesOf 0 [⟨0, 5⟩, ⟨1, 6⟩, ⟨0, 7⟩] = addressesOf 0 [⟨2, 9⟩, ⟨0, 5⟩, ⟨0, 7⟩] := by decide
theorem witness_UndrivenWiresAreRefused :
    wiresWellFormed (lows 64) = true ∧ wiresWellFormed (lows 63 ++ [.undriven]) = false := by decide
theorem witness_CallsAreEvaluatedOrRefused :
    (Call.computeIndices 0).wellFormed = true ∧ (Call.ptIndex 4 (2 ^ 64)).wellFormed = false ∧
    (0 < 1 ∨ 4 < 0) ∧ (5 < 1 ∨ 4 < 5) ∧ (-1 : Int) < 0 ∧ (2 : Int) ^ 64 ≤ 2 ^ 64 ∧
    (1 ≤ 1 ∧ 1 ≤ 4) ∧ (1 ≤ 4 ∧ 4 ≤ 4) := by decide
theorem witness_NarrowNumbersAreZeroExtended : 0 ≤ 64 ∧ 64 ≤ 64 := by decide

end Sys2Proof.Tests
end

section
/-! PROOFS. The three forms of a field, 00_scope.md R8: shift and mask, slice, quotient and remainder.
The arithmetic form is the common value; each of the other two is brought to it by a lemma of its own. -/

namespace Sys2Proof.Proofs.Scope

open Sys2Proof Sys2Proof.Machine

/-- The mask of nine ones is the remainder by 512. -/
theorem toNat_and_indexMask (v : VirtualAddress) :
    (v &&& BitVec.ofNat 64 indexMask).toNat = v.toNat % 512 := by
  have hmask : (BitVec.ofNat 64 indexMask).toNat = 2 ^ 9 - 1 := rfl
  rw [BitVec.toNat_and, hmask, Nat.and_two_pow_sub_one_eq_mod]

/-- A right shift is the floor of the division by a power of two. -/
theorem toNat_ushiftRight_eq_div {w : Nat} (s : Nat) (a : BitVec w) :
    (a >>> s).toNat = a.toNat / 2 ^ s := by
  rw [BitVec.toNat_ushiftRight, Nat.shiftRight_eq_div_pow]

/-- The nine-bit slice is a quotient and remainder. -/
theorem toNat_slice {w : Nat} (s : Nat) (a : BitVec w) :
    (a.extractLsb' s 9).toNat = a.toNat / 2 ^ s % 512 := by
  rw [BitVec.extractLsb'_toNat, Nat.shiftRight_eq_div_pow]

/-- The model's extraction is a quotient and remainder, at any shift and of an address of any width. -/
theorem toNat_extractField {w : Nat} (s : Nat) (a : BitVec w) :
    (extractField s a).toNat = a.toNat / 2 ^ s % 512 := by
  rw [extractField_slice, toNat_slice]

/-- Settles O35: the mask after the shift, the slice and the model's extraction each equal the quotient
and remainder. The bound on `s` is not needed: where a slice would leave the word, all read zeros. -/
theorem shiftMaskSliceAndDivisionAgree : Obligations.ShiftMaskSliceAndDivisionAgree := by
  intro s _ a
  have hmasked : ((a >>> s) &&& 0x1FF).toNat = a.toNat / 2 ^ s % 512 :=
    calc ((a >>> s) &&& 0x1FF).toNat
      _ = (a >>> s).toNat % 512 := toNat_and_indexMask (a >>> s)
      _ = a.toNat / 2 ^ s % 512 := by rw [toNat_ushiftRight_eq_div]
  exact ⟨hmasked, toNat_slice s a, toNat_extractField s a⟩

end Sys2Proof.Proofs.Scope
end

section
/-! PROOFS. The input port and the wires that drive it, 10_state.md R22 to R27. A bundle of wires is read
once, by `wordOfWires`; what decoding and presenting a bundle do follows from what that reading answers. The
outputs are settled in every state, of which the state at reset is one. -/

namespace Sys2Proof.Proofs.Interface

open Sys2Proof Sys2Proof.Machine

/-! ## What reading a bundle answers -/

/-- The wires of an operation carry its word. -/
theorem wordOfWires_encode (i : Instr) : wordOfWires (encode i) = .ok i.word :=
  wordOfWires_of_word i.word

/-- A bundle of another width is refused with its width, whatever its wires carry (log 10). -/
theorem wordOfWires_eq_wrongWidth {ws : List Wire} (hlen : ws.length ≠ 64) :
    wordOfWires ws = .error (.wrongWidth ws.length) :=
  if_neg hlen

/-- A full bundle is refused with the place of its first wire that is not driven (log 9). -/
theorem wordOfWires_eq_notDriven {ws : List Wire} (hlen : ws.length = 64) {k : Nat}
    (hk : ∃ w ∈ ws[k]?, w.isDriven = false) (hfirst : ∀ j < k, ∀ w ∈ ws[j]?, w.isDriven = true) :
    wordOfWires ws = .error (.notDriven k) := by
  have hbits : bitsOfWires 0 ws = .error (.notDriven k) := by
    simpa using bitsOfWires_error (i := 0) k hk hfirst
  rw [wordOfWires, if_pos hlen, hbits]
  rfl

/-- A bundle that is no input word is refused for some reason. -/
theorem exists_wordOfWires_eq_error {ws : List Wire} (hwf : wiresWellFormed ws = false) :
    ∃ r, wordOfWires ws = .error r := by
  cases hword : wordOfWires ws with
  | error r => exact ⟨r, rfl⟩
  | ok a =>
    have hin : wiresWellFormed ws = true := (wordOfWires_ok_iff ws).mp ⟨a, hword⟩
    rw [hwf] at hin
    cases hin

/-! ## Decoding a bundle -/

/-- A bundle that carries a word decodes to the unit's operation on it. -/
theorem decode_of_word (u : HwUnit) {ws : List Wire} {a : VirtualAddress}
    (hword : wordOfWires ws = .ok a) : decode u ws = .ok (decodeWord u a) := by
  rw [decode, hword]
  rfl

/-- Decoding refuses a bundle for the reason that reading it gives. -/
theorem decode_of_error (u : HwUnit) {ws : List Wire} {r : Reject}
    (hword : wordOfWires ws = .error r) : decode u ws = .error r := by
  rw [decode, hword]
  rfl

/-- Every unit decodes the same bundles: those that carry a word. -/
theorem decode_ok_iff (u : HwUnit) (ws : List Wire) :
    (∃ i, decode u ws = .ok i) ↔ ∃ a, wordOfWires ws = .ok a := by
  cases hword : wordOfWires ws with
  | ok a => simp [decode_of_word u hword]
  | error r => simp [decode_of_error u hword]

/-- Settles O3: decoding succeeds and is refused as reading the bundle is. -/
theorem wiresDecodeExactlyWhenDriven : Obligations.WiresDecodeExactlyWhenDriven := by
  intro u ws
  refine ⟨(decode_ok_iff u ws).trans (wordOfWires_ok_iff ws), fun hlen => ?_,
    fun hlen k hk hfirst => ?_⟩
  · exact decode_of_error u (wordOfWires_eq_wrongWidth hlen)
  · exact decode_of_error u (wordOfWires_eq_notDriven hlen hk hfirst)

/-! ## Presenting a bundle -/

/-- A bundle that carries a word is evaluated with that word. -/
theorem presentWires_of_word (u : HwUnit) (s : State) {ws : List Wire} {a : VirtualAddress}
    (hword : wordOfWires ws = .ok a) : presentWires u ws s = evaluate u a s := by
  rw [presentWires, hword]

/-- A bundle that carries no word is refused as no input, for the reason that reading it gives. -/
theorem presentWires_of_error (u : HwUnit) (s : State) {ws : List Wire} {r : Reject}
    (hword : wordOfWires ws = .error r) : presentWires u ws s = .refused (.notAnInput r) := by
  rw [presentWires, hword]

/-- An evaluation of any address completes (40 R59). -/
theorem completes_evaluate (u : HwUnit) (a : VirtualAddress) (s : State) :
    Completes (evaluate u a s) :=
  ⟨s.drive a, evaluate_eq a s u⟩

/-- What is refused does not complete. -/
theorem not_completes_refused (r : Refusal) : ¬ Completes (.refused r) := by
  rintro ⟨t, h⟩
  cases h

/-- Presenting completes for the bundles that carry a word, at every unit and from every state. -/
theorem completes_presentWires_iff (u : HwUnit) (ws : List Wire) (s : State) :
    Completes (presentWires u ws s) ↔ ∃ a, wordOfWires ws = .ok a := by
  cases hword : wordOfWires ws with
  | ok a => simp [presentWires_of_word u s hword, completes_evaluate]
  | error r => simp [presentWires_of_error u s hword, not_completes_refused]

/-- Settles O54: presenting completes or is refused as reading the bundle answers, and reading the wires
of an operation answers its word. -/
theorem undrivenWiresAreRefused : Obligations.UndrivenWiresAreRefused := by
  refine ⟨fun u ws s => ?_, fun u ws s hwf => ?_, fun i s => ?_⟩
  · exact (wordOfWires_ok_iff ws).symm.trans (completes_presentWires_iff u ws s).symm
  · obtain ⟨r, hr⟩ := exists_wordOfWires_eq_error hwf
    exact ⟨r, presentWires_of_error u s hr⟩
  · exact presentWires_of_word i.unit s (wordOfWires_encode i)

/-! ## The outputs and the word on `vaddr` -/

/-- Each port of each unit carries the field of the word on `vaddr`, in every state (70 R98). -/
theorem settled (u : HwUnit) (s : State) : Settled u s := by
  intro p hp k hk
  rw [State.ports_eq, List.mem_map] at hp
  obtain ⟨l, -, rfl⟩ := hp
  calc (ptIndex l s.vaddr).getLsbD k
    _ = s.vaddr.getLsbD (shift l + k) := by
        rw [ptIndex_getLsbD, decide_eq_true hk, Bool.true_and]
    _ = s.vaddr.getLsbD (12 + 9 * (l.number - 1) + k) := by rw [shift_eq_number]

/-- Settles O46: the state at reset is settled because every state is. -/
theorem resetIsSettled : Obligations.ResetIsSettled :=
  ⟨fun u => settled u State.reset, State.outputs_eq State.reset⟩

/-- What an evaluation answers does not depend on the state before it. -/
theorem evaluate_eq_of_any_state (u : HwUnit) (a : VirtualAddress) (s s' : State) :
    evaluate u a s = evaluate u a s' := by
  have hdrive : s.drive a = s'.drive a :=
    State.ext_vaddr (by rw [State.drive_vaddr, State.drive_vaddr])
  rw [evaluate_eq, evaluate_eq, hdrive]

/-- Settles O49: the word on `vaddr` is the whole state, and driving a word replaces it. -/
theorem blockRemembersNothing : Obligations.BlockRemembersNothing := by
  refine ⟨fun s s' hv => ?_, fun s s' hv => ?_, fun a s s' => ?_, fun a b s => ?_⟩
  · have hs : s = s' := State.ext_vaddr hv
    exact ⟨hs, congrArg State.outputs hs⟩
  · exact congrArg step (State.ext_vaddr hv)
  · exact evaluate_eq_of_any_state .addressDecomposer a s s'
  · exact State.drive_drive s b a

end Sys2Proof.Proofs.Interface
end

section
/-! PROOFS. What is kept between evaluations, 20_memory.md R30 to R36: nothing but the word that is held on
`vaddr`. A run of steps answers the state it began in, and contexts that take turns on one block are each
answered from their own addresses alone. -/

namespace Sys2Proof.Proofs.Memory

open Sys2Proof Sys2Proof.Machine
open Sys2Proof.Proofs.Interface (settled)

/-! ## The page below an address -/

/-- Rounding down to a page keeps the bits from 12 up. -/
theorem getLsbD_pageBase (a : VirtualAddress) {i : Nat} (hi : 12 ≤ i) :
    (BitVec.ofNat 64 (a.toNat / 4096 * 4096)).getLsbD i = a.getLsbD i := by
  have hbase : a.toNat / 4096 * 4096 < 2 ^ 64 :=
    (Nat.div_mul_le_self a.toNat 4096).trans_lt a.isLt
  have hpage : 4096 = 2 ^ 12 := rfl
  calc (BitVec.ofNat 64 (a.toNat / 4096 * 4096)).getLsbD i
    _ = (a.toNat / 2 ^ 12 * 2 ^ 12).testBit i := by
        rw [BitVec.getLsbD, BitVec.toNat_ofNat, Nat.mod_eq_of_lt hbase, hpage]
    _ = (a.toNat / 2 ^ 12).testBit (i - 12) := by
        rw [Nat.testBit_mul_two_pow, decide_eq_true hi, Bool.true_and]
    _ = a.getLsbD i := by
        rw [Nat.testBit_div_two_pow, Nat.sub_add_cancel hi, BitVec.getLsbD]

/-- Settles O25: every field is read from the bits that rounding down to a page keeps. -/
theorem unalignedAddressActsAsItsPage : Obligations.UnalignedAddressActsAsItsPage :=
  fun a => SameOutputs.of_bits fun _ hi _ => (getLsbD_pageBase a hi).symm

/-! ## Steps and runs while `vaddr` is held -/

/-- A step of a unit answers the state it began in and no other (70 R99). -/
theorem eq_of_stepOf_eq_next {u : HwUnit} {s t : State} (h : stepOf u s = .next t) : t = s := by
  rw [stepOf_eq] at h
  cases h
  rfl

/-- Settles O45: every state is settled, so the state that a step answers is; and the output of a level is
the slice of the word on `vaddr`, in particular of a word just driven. -/
theorem stepSettlesAndKeepsSettled : Obligations.StepSettlesAndKeepsSettled := by
  refine ⟨settled, fun u s t _ hstep => ?_, fun s t _ => settled .addressDecomposer t,
    fun s a l => ?_, fun s => ?_⟩
  · exact ⟨settled u t, congrArg State.vaddr (eq_of_stepOf_eq_next hstep)⟩
  · rw [State.output_eq, State.drive_vaddr, ptIndex_slice, shift_eq_number]
  · simp only [State.outputs_eq, computeIndices, ptIndex_slice, shift]

/-- Settles O47: being settled and being at rest hold of every state, so each implies the other. -/
theorem settledMeansAtRest : Obligations.SettledMeansAtRest := fun s =>
  ⟨settled .addressDecomposer s, iff_of_true (settled .addressDecomposer s) (step_eq s), stepOf_eq s⟩

/-- A machine whose every step answers the state it began in answers that state after any run. -/
theorem run_eq_of_step_eq {M : Host.Core} (hstep : ∀ s, M.step s = .next s) (n : Nat) (s : M.State) :
    M.run n s = .next s := by
  induction n with
  | zero => rfl
  | succ n ih =>
    rw [Host.Core.run, hstep]
    exact ih

/-- A run of the block answers the state it began in. -/
theorem run_core_eq (n : Nat) (s : State) : Host.Core.run Sys2Proof.core n s = .next s :=
  run_eq_of_step_eq (M := Sys2Proof.core) step_eq n s

/-- Settles O48: a run answers the state it began in, and so does one step. -/
theorem holdingTheInputHoldsTheOutputs : Obligations.HoldingTheInputHoldsTheOutputs := fun n s =>
  ⟨(run_core_eq (n + 1) s).trans (step_eq s).symm, s, run_core_eq n s, rfl, rfl⟩

/-! ## Contexts that share one block -/

/-- The reply that a request asks for, of itself alone; `serve_eq_map` ties it to the block. -/
def replyFor (r : Request) : Reply where
  context := r.context
  indices := computeIndices r.address

/-- A turn answers its own request and leaves that request's address on `vaddr`. -/
theorem serve_cons (r : Request) (rs : List Request) (s : State) :
    serve (r :: rs) s = replyFor r :: serve rs (s.drive r.address) := by
  rw [serve, evaluate_eq]
  rfl

/-- A shared block answers each request with the reply it asks for, from every state. -/
theorem serve_eq_map (rs : List Request) (s : State) : serve rs s = rs.map replyFor := by
  induction rs generalizing s with
  | nil => rfl
  | cons r rs ih => rw [serve_cons, ih, List.map_cons]

/-- The replies a context sees are `compute_indices` of the addresses it presented. -/
theorem repliesTo_map_replyFor (c : Nat) (rs : List Request) :
    repliesTo c (rs.map replyFor) = (addressesOf c rs).map computeIndices := by
  rw [repliesTo, addressesOf, List.filter_map, List.map_map, List.map_map]
  rfl

/-- The replies that a context sees from a shared block. -/
theorem repliesTo_serve (c : Nat) (rs : List Request) (s : State) :
    repliesTo c (serve rs s) = (addressesOf c rs).map computeIndices := by
  rw [serve_eq_map, repliesTo_map_replyFor]

/-- Settles O51: one reply to each request, and each context's replies are of its own addresses. -/
theorem eachContextSeesItsOwnResults : Obligations.EachContextSeesItsOwnResults := by
  intro c rs s
  refine ⟨?_, repliesTo_serve c rs s⟩
  rw [serve_eq_map, List.length_map]

/-- Settles O52: a context's replies are a function of its own addresses. -/
theorem contextsDoNotInterfere : Obligations.ContextsDoNotInterfere := by
  intro c rs rs' s s' haddr
  rw [repliesTo_serve, repliesTo_serve, haddr]

end Sys2Proof.Proofs.Memory
end

section
/-! PROOFS. From wires, words and calls to operations and back, 30_encoding.md R47 to R54, and what a step
makes of the word on `vaddr`. An operation is its unit and its word, so every round trip is one of words:
the wires of a word, and the number of a word. -/

namespace Sys2Proof.Proofs.Decoding

open Sys2Proof Sys2Proof.Machine
open Sys2Proof.Proofs.Interface

/-! ## An operation is its unit and its word -/

/-- What the unit of an operation performs on its word is that operation. -/
theorem decodeWord_unit_word (i : Instr) : decodeWord i.unit i.word = i := by cases i <;> rfl

/-- The word of a component extraction is its operand. -/
theorem word_extraction (l : Level) (a : VirtualAddress) : (extraction l a).word = a :=
  decodeWord_word (.pageTableIndexExtractor l) a

/-! ## Wires -/

/-- Settles O1: the wires of an operation carry its word, and its unit performs it on that word. -/
theorem decodeOfEncodeIsTheOperation : Obligations.DecodeOfEncodeIsTheOperation := by
  intro i _
  rw [decode_of_word i.unit (wordOfWires_encode i), decodeWord_unit_word]

/-- Everything a bundle can be that carries a word: 64 driven wires, the bits of that word. -/
theorem exists_bits_of_wordOfWires {ws : List Wire} {a : VirtualAddress}
    (h : wordOfWires ws = .ok a) :
    ∃ bs : List Bool, bs.length = 64 ∧ ws = bs.map Wire.ofBool ∧
      a = BitVec.ofNat 64 (natOfBits bs) := by
  by_cases hlen : ws.length = 64
  · rw [wordOfWires, if_pos hlen] at h
    cases hbits : bitsOfWires 0 ws with
    | error r =>
      rw [hbits] at h
      cases h
    | ok bs =>
      rw [hbits] at h
      cases h
      have hws : ws = bs.map Wire.ofBool := wires_of_bitsOfWires hbits
      exact ⟨bs, by simpa [hws] using hlen, hws, rfl⟩
  · rw [wordOfWires_eq_wrongWidth hlen] at h
    cases h

/-- Only one bundle carries a word: the wires of its 64 bits. -/
theorem wires_of_wordOfWires {ws : List Wire} {a : VirtualAddress} (h : wordOfWires ws = .ok a) :
    ws = (List.range Config.vaWidth).map fun k => Wire.ofBool (a.getLsbD k) := by
  obtain ⟨bs, hlen, rfl, rfl⟩ := exists_bits_of_wordOfWires h
  apply List.ext_getElem
  · simp [hlen]
  · intro k hk _
    have hk64 : k < 64 := by simpa [hlen] using hk
    have hbit : (BitVec.ofNat 64 (natOfBits bs)).getLsbD k = bs[k] := by
      rw [BitVec.getLsbD_ofNat, natOfBits_testBit, decide_eq_true hk64, Bool.true_and,
        List.getD_eq_getElem]
    rw [List.getElem_map, List.getElem_map, List.getElem_range, hbit]

/-- Everything decoding can answer for a bundle: the unit's operation on the word it carries. -/
theorem exists_word_of_decode {u : HwUnit} {ws : List Wire} {i : Instr} (h : decode u ws = .ok i) :
    ∃ a, wordOfWires ws = .ok a ∧ i = decodeWord u a := by
  obtain ⟨a, hword⟩ := (decode_ok_iff u ws).mp ⟨i, h⟩
  rw [decode_of_word u hword] at h
  cases h
  exact ⟨a, hword, rfl⟩

/-- Settles O2: what decodes carries a word, and only the wires of that word carry it. -/
theorem encodeOfDecodeIsTheWires : Obligations.EncodeOfDecodeIsTheWires := by
  intro u ws i h
  obtain ⟨a, hword, rfl⟩ := exists_word_of_decode h
  refine ⟨?_, decodeWord_unit u a⟩
  rw [encode, decodeWord_word]
  exact (wires_of_wordOfWires hword).symm

/-! ## Level numbers -/

theorem ofNumber_number (l : Level) : Level.ofNumber l.number = .ok l := by cases l <;> rfl

/-- The numbers 1 to 4 each name a level. -/
theorem exists_number_eq {n : Nat} (h1 : 1 ≤ n) (h4 : n ≤ 4) : ∃ l : Level, l.number = n := by
  interval_cases n
  · exact ⟨.l1, rfl⟩
  · exact ⟨.l2, rfl⟩
  · exact ⟨.l3, rfl⟩
  · exact ⟨.l4, rfl⟩

/-- Any other number is refused (41 R79). -/
theorem ofNumber_eq_noSuchLevel {n : Nat} (h : n < 1 ∨ 4 < n) :
    Level.ofNumber n = .error (.noSuchLevel n) := by
  rcases h with h | h
  · obtain rfl : n = 0 := by omega
    rfl
  · obtain ⟨m, rfl⟩ : ∃ m, n = m + 5 := ⟨n - 5, by omega⟩
    rfl

/-! ## Calls -/

/-- A mapped answer is accepted exactly when the answer is. -/
theorem exists_map_eq_ok_iff {ε α β : Type} (f : α → β) (x : Except ε α) :
    (∃ b, x.map f = .ok b) ↔ ∃ a, x = .ok a := by
  cases x <;> simp [Except.map]

/-- A call at a level that exists is accepted or refused as its number is. -/
theorem decodeCall_ptIndex_number (l : Level) (v : Int) :
    decodeCall (.ptIndex l.number v) = (addressOfInt v).map (extraction l) := by
  rw [decodeCall, ofNumber_number]

/-- A call at a level that does not exist is refused by that level, whatever its number (log 10). -/
theorem decodeCall_ptIndex_eq_noSuchLevel {n : Nat} (h : n < 1 ∨ 4 < n) (v : Int) :
    decodeCall (.ptIndex n v) = .error (.noSuchLevel n) := by
  rw [decodeCall, ofNumber_eq_noSuchLevel h]

/-- A number that is no address is refused for the same reason by `compute_indices` and at every level
that exists. -/
theorem decodeCall_of_addressOfInt_error {v : Int} {r : Reject} (h : addressOfInt v = .error r) :
    decodeCall (.computeIndices v) = .error r ∧
    ∀ n, 1 ≤ n → n ≤ 4 → decodeCall (.ptIndex n v) = .error r := by
  refine ⟨?_, fun n h1 h4 => ?_⟩
  · rw [decodeCall, h]
    rfl
  · obtain ⟨l, rfl⟩ := exists_number_eq h1 h4
    rw [decodeCall_ptIndex_number, h]
    rfl

theorem addressOfInt_eq_negative {v : Int} (h : v < 0) : addressOfInt v = .error .negative :=
  if_pos h

theorem addressOfInt_eq_doesNotFit {v : Int} (h : 2 ^ 64 ≤ v) :
    addressOfInt v = .error .doesNotFit := by
  have hpos : ¬ v < 0 := by omega
  rw [addressOfInt, if_neg hpos, if_pos h]

/-- A call decodes exactly when it is well formed. -/
theorem decodeCall_ok_iff (c : Call) : (∃ i, decodeCall c = .ok i) ↔ c.wellFormed = true := by
  cases c with
  | computeIndices v => exact (exists_map_eq_ok_iff _ _).trans (addressOfInt_ok_iff v)
  | ptIndex n v =>
    by_cases hn : 1 ≤ n ∧ n ≤ 4
    · have hwf : (Call.ptIndex n v).wellFormed = addressWellFormed v := by
        simp [Call.wellFormed, hn]
      obtain ⟨l, rfl⟩ := exists_number_eq hn.1 hn.2
      rw [decodeCall_ptIndex_number, exists_map_eq_ok_iff, addressOfInt_ok_iff, hwf]
    · rw [decodeCall_ptIndex_eq_noSuchLevel (by omega)]
      simp [Call.wellFormed, hn]

/-- A call that is not well formed is refused for some reason. -/
theorem exists_decodeCall_eq_error {c : Call} (hwf : c.wellFormed = false) :
    ∃ r, decodeCall c = .error r := by
  cases hcall : decodeCall c with
  | error r => exact ⟨r, rfl⟩
  | ok i =>
    have hin : c.wellFormed = true := (decodeCall_ok_iff c).mp ⟨i, hcall⟩
    rw [hwf] at hin
    cases hin

/-- The call of a component extraction names the number of its level. -/
theorem call_extraction (l : Level) (a : VirtualAddress) :
    (extraction l a).call = .ptIndex l.number a.toNat := by cases l <;> rfl

/-- The call that a unit's operation is written as decodes to that operation. -/
theorem decodeCall_call_decodeWord (u : HwUnit) (a : VirtualAddress) :
    decodeCall (decodeWord u a).call = .ok (decodeWord u a) := by
  cases u with
  | addressDecomposer =>
    simp only [decodeWord, Instr.call, decodeCall, addressOfInt_toNat]
    rfl
  | pageTableIndexExtractor l =>
    simp only [decodeWord, call_extraction, decodeCall_ptIndex_number, addressOfInt_toNat]
    rfl

/-- The call that an operation is written as decodes to that operation. -/
theorem decodeCall_call (i : Instr) : decodeCall i.call = .ok i := by
  rw [← decodeWord_unit_word i]
  exact decodeCall_call_decodeWord i.unit i.word

/-- Settles O9: a call is accepted as its level and its number are; a word's number is that word. -/
theorem callsDecodeExactlyWhenWellFormed : Obligations.CallsDecodeExactlyWhenWellFormed :=
  ⟨decodeCall_ok_iff, decodeCall_call⟩

/-! ## Presenting a call -/

/-- A call that decodes is carried out with the word of its operation on `vaddr`. -/
theorem presentCall_of_ok (s : State) {c : Call} {i : Instr} (h : decodeCall c = .ok i) :
    presentCall c s = .next (s.drive i.word) := by
  rw [presentCall, h]
  exact evaluate_eq i.word s i.unit

/-- A call that does not decode is refused as no input, for the reason that decoding gives. -/
theorem presentCall_of_error (s : State) {c : Call} {r : Reject} (h : decodeCall c = .error r) :
    presentCall c s = .refused (.notAnInput r) := by
  rw [presentCall, h]

/-- Presenting completes for the calls that decode. -/
theorem completes_presentCall_iff (c : Call) (s : State) :
    Completes (presentCall c s) ↔ ∃ i, decodeCall c = .ok i := by
  cases hcall : decodeCall c with
  | ok i => simp [presentCall_of_ok s hcall, Completes]
  | error r => simp [presentCall_of_error s hcall, not_completes_refused]

/-- A number that is no address is refused by name, by `compute_indices` and at every level that
exists. -/
theorem presentCall_of_addressOfInt_error (s : State) {v : Int} {r : Reject}
    (h : addressOfInt v = .error r) :
    presentCall (.computeIndices v) s = .refused (.notAnInput r) ∧
    ∀ n, 1 ≤ n → n ≤ 4 → presentCall (.ptIndex n v) s = .refused (.notAnInput r) := by
  obtain ⟨hblock, hlevel⟩ := decodeCall_of_addressOfInt_error h
  exact ⟨presentCall_of_error s hblock, fun n h1 h4 => presentCall_of_error s (hlevel n h1 h4)⟩

/-- Settles O55: presenting a call completes or is refused as decoding it answers. -/
theorem callsAreEvaluatedOrRefused : Obligations.CallsAreEvaluatedOrRefused := by
  refine ⟨fun i s => ?_, fun c s => ?_, fun c s hwf => ?_, fun n v s hn => ?_, fun v s hv => ?_,
    fun v s hv => ?_⟩
  · rw [presentCall_of_ok s (decodeCall_call i), exec_eq, State.drive_drive]
  · exact (decodeCall_ok_iff c).symm.trans (completes_presentCall_iff c s).symm
  · obtain ⟨r, hr⟩ := exists_decodeCall_eq_error hwf
    exact ⟨r, presentCall_of_error s hr⟩
  · exact presentCall_of_error s (decodeCall_ptIndex_eq_noSuchLevel hn v)
  · exact presentCall_of_addressOfInt_error s (addressOfInt_eq_negative hv)
  · exact presentCall_of_addressOfInt_error s (addressOfInt_eq_doesNotFit hv)

/-! ## The operation table -/

/-- Mask and match are 0 in each row of the table. -/
theorem mask_pattern_eq_zero : ∀ r ∈ opcodeTable, r.mask = 0 ∧ r.pattern = 0 := by decide

/-- A row whose mask and match are 0 is matched by every word. -/
theorem accepts_of_mask_pattern_eq_zero {r : OpcodeRow} (hmask : r.mask = 0)
    (hpattern : r.pattern = 0) (w : VirtualAddress) : r.accepts w = true := by
  rw [OpcodeRow.accepts, hmask, hpattern, beq_iff_eq]
  exact BitVec.and_zero

/-- Settles O6: a mask of 0 leaves no bit to compare, and a step asks no row. -/
theorem everyWordMatchesEveryRow : Obligations.EveryWordMatchesEveryRow := by
  refine ⟨fun r hr => ?_, fun s => rfl⟩
  obtain ⟨hmask, hpattern⟩ := mask_pattern_eq_zero r hr
  exact ⟨hmask, hpattern, accepts_of_mask_pattern_eq_zero hmask hpattern⟩

/-- The mnemonic of an operation is told by its unit, whatever its word. -/
theorem mnemonic_decodeWord (u : HwUnit) (w w' : VirtualAddress) :
    (decodeWord u w).mnemonic = (decodeWord u w').mnemonic := by
  cases u with
  | addressDecomposer => rfl
  | pageTableIndexExtractor l => cases l <;> rfl

/-- Each row carries the mnemonic and the outputs of the operation at its unit. -/
theorem mnemonic_drivenLevels_of_mem {r : OpcodeRow} (hr : r ∈ opcodeTable) (w : VirtualAddress) :
    (decodeWord r.unit w).mnemonic = r.mnemonic ∧ drivenLevels r.unit = r.produces := by
  have hzero : ∀ r ∈ opcodeTable,
      (decodeWord r.unit 0).mnemonic = r.mnemonic ∧ drivenLevels r.unit = r.produces := by decide
  obtain ⟨hname, hlevels⟩ := hzero r hr
  exact ⟨(mnemonic_decodeWord r.unit w 0).trans hname, hlevels⟩

/-- Each unit has a row. -/
theorem exists_row_of_unit (u : HwUnit) : ∃ r ∈ opcodeTable, r.unit = u := by
  cases u with
  | addressDecomposer => decide
  | pageTableIndexExtractor l => cases l <;> decide

/-- Settles O7: the row of an operation is the row of its unit, which carries its mnemonic. -/
theorem tableRowsAreTheFiveOperations : Obligations.TableRowsAreTheFiveOperations := by
  refine ⟨rfl, fun r hr w => mnemonic_drivenLevels_of_mem hr w, fun i => ?_⟩
  obtain ⟨r, hr, hunit⟩ := exists_row_of_unit i.unit
  obtain ⟨hname, -⟩ := mnemonic_drivenLevels_of_mem hr i.word
  rw [hunit, decodeWord_unit_word] at hname
  exact ⟨r, hr, hunit, hname.symm⟩

/-! ## The step and the word on `vaddr` -/

/-- The wires of a word's number carry that word. -/
theorem wordOfWires_wiresOfNat_toNat (a : VirtualAddress) :
    wordOfWires (wiresOfNat 64 a.toNat) = .ok a := by
  rw [wiresOfNat_toNat, wordOfWires_of_word]

/-- The wires of a number below 2^64 carry the word of that number. -/
theorem wordOfWires_wiresOfNat {w : Nat} (hw : w < 2 ^ 64) :
    wordOfWires (wiresOfNat 64 w) = .ok (BitVec.ofNat 64 w) := by
  have hnat : (BitVec.ofNat 64 w).toNat = w := by rw [BitVec.toNat_ofNat, Nat.mod_eq_of_lt hw]
  calc wordOfWires (wiresOfNat 64 w)
    _ = wordOfWires (wiresOfNat 64 (BitVec.ofNat 64 w).toNat) := by rw [hnat]
    _ = .ok (BitVec.ofNat 64 w) := wordOfWires_wiresOfNat_toNat _

/-- Settles O10: a word's wires decode to the unit's operation on it, which is what a step carries out. -/
theorem stepRunsTheDecodedOperation : Obligations.StepRunsTheDecodedOperation := by
  have hdecode : ∀ (u : HwUnit) (s : State),
      decode u (wiresOfNat 64 s.vaddr.toNat) = .ok (decodeWord u s.vaddr) := fun u s =>
    decode_of_word u (wordOfWires_wiresOfNat_toNat s.vaddr)
  refine ⟨fun u s i h => ?_, fun u s => ⟨_, hdecode u s⟩, fun s => rfl⟩
  rw [hdecode] at h
  cases h
  rw [stepOf, State.fetch_eq]

/-- A word just driven has its slices on the outputs. -/
theorem output_drive (s : State) (a : VirtualAddress) (l : Level) :
    (s.drive a).output l = a.extractLsb' (shift l) 9 := by
  rw [State.output_eq, State.drive_vaddr, ptIndex_slice]

/-- Settles O11: an extraction of the word on `vaddr` and a step both leave that word there, and an
operation puts its word there, whose slices are on the outputs. -/
theorem stepPerformsEveryExtraction : Obligations.StepPerformsEveryExtraction := by
  refine ⟨fun s l => ?_, fun i s => ?_⟩
  · have hexec : exec (extraction l s.vaddr) s = .next s := by
      rw [exec_eq, word_extraction, State.drive_self]
    exact ⟨s, s, step_eq s, hexec, rfl⟩
  · refine ⟨s.drive i.word, exec_eq i s, fun l => ?_⟩
    rw [output_drive, shift_eq_number]

/-- Settles O12: the wires of the number carry its word, so it is driven, decodes and is on `vaddr` for
the next step. -/
theorem placedWordRunsNext : Obligations.PlacedWordRunsNext := by
  intro s w hw
  have hword := wordOfWires_wiresOfNat hw
  have hplaced : s.withFetchWord 64 w = s.drive (BitVec.ofNat 64 w) := by
    rw [State.withFetchWord, hword]
  refine ⟨hplaced, ?_, ?_⟩
  · rw [decodeTableWord, decode_of_word .addressDecomposer hword]
    rfl
  · rw [hplaced, step_eq, exec_eq]
    rfl

end Sys2Proof.Proofs.Decoding
end

section
/-! PROOFS. The formats, 30_encoding.md R42 to R55: the six fields of VA64, the four of the packed form, the
tuple in its order, and fields held in or taken from wider words. Cutting a slice out of joined fields gives
back the field, and joining slices that stand side by side gives one slice. -/

namespace Sys2Proof.Proofs.Formats

open Sys2Proof Sys2Proof.Machine

/-- Two slices that stand side by side are one slice. -/
theorem slice_append_slice {w : Nat} (a : BitVec w) (start low high : Nat) :
    a.extractLsb' (start + low) high ++ a.extractLsb' start low = a.extractLsb' start (high + low) :=
  BitVec.extractLsb'_append_extractLsb'_eq_extractLsb' rfl

/-! ## VA64 -/

/-- The fields of a word made of six fields are the fields it was made of: those below a field are cut
off one by one. -/
theorem ofWord_toWord (f : VA64) : VA64.ofWord f.toWord = f := by
  rw [VA64.ofWord, VA64.toWord, VA64.mk.injEq]
  refine ⟨?_, ?_, ?_, ?_, ?_, ?_⟩
  all_goals repeat rw [BitVec.extractLsb'_append_eq_of_le (by decide)]
  · exact BitVec.extractLsb'_eq_self
  all_goals exact BitVec.extractLsb'_append_eq_right

/-- The word made of the fields of a word is that word: joined from the top, they are ever longer slices
of it, the last all of it. -/
theorem toWord_ofWord (a : VirtualAddress) : (VA64.ofWord a).toWord = a := by
  rw [VA64.toWord, VA64.ofWord, slice_append_slice a 39 9 16, slice_append_slice a 30 9 25,
    slice_append_slice a 21 9 34, slice_append_slice a 12 9 43, slice_append_slice a 0 12 52]
  exact BitVec.extractLsb'_eq_self

/-- `compute_indices` is the four index fields of the word (R42). -/
theorem computeIndices_eq_ofWord (a : VirtualAddress) : computeIndices a
    = ⟨(VA64.ofWord a).l4, (VA64.ofWord a).l3, (VA64.ofWord a).l2, (VA64.ofWord a).l1⟩ := by
  simp only [computeIndices, ptIndex_slice, shift, VA64.ofWord]

/-- `compute_indices` of a word made of six fields is the four index fields among them. -/
theorem computeIndices_toWord (f : VA64) : computeIndices f.toWord = ⟨f.l4, f.l3, f.l2, f.l1⟩ := by
  rw [computeIndices_eq_ofWord, ofWord_toWord]

/-- Settles O4: the round trips, read field by field; a shift and mask is the slice. -/
theorem va64FieldsAndWordAgree : Obligations.Va64FieldsAndWordAgree := by
  refine ⟨ofWord_toWord, toWord_ofWord, fun f => VA64.mk.inj (ofWord_toWord f), fun f => ?_⟩
  obtain ⟨h4, h3, h2, h1⟩ := IndexTuple.mk.inj (computeIndices_toWord f)
  exact ⟨h4, h3, h2, h1⟩

/-- Settles O5: the outputs are `compute_indices` of the word on `vaddr`, before a step as after it. -/
theorem stepOutputsAreTheVa64Fields : Obligations.StepOutputsAreTheVa64Fields := by
  intro f s hv
  refine ⟨s, step_eq s, ?_⟩
  rw [State.outputs_eq, hv, computeIndices_toWord]

/-! ## Words that differ in ignored bits -/

/-- Two addresses with the same tuple give the same on every port of every unit. -/
theorem sameOutputs_of_computeIndices_eq {a b : VirtualAddress}
    (h : computeIndices a = computeIndices b) : SameOutputs a b :=
  SameOutputs.of_ptIndex fun l => by rw [← field_computeIndices, h, field_computeIndices]

/-- Every operation is well formed. -/
theorem wellFormed_eq_true (i : Instr) : i.wellFormed = true := by cases i <;> rfl

/-- Settles O26: no operation is ill formed, and the tuple holds neither HIGH nor OFFSET. -/
theorem noWordIsIllegal : Obligations.NoWordIsIllegal := by
  refine ⟨fun u w => ⟨wellFormed_eq_true _, fun s => ⟨_, exec_eq _ s⟩⟩, fun f h o => ?_⟩
  apply sameOutputs_of_computeIndices_eq
  rw [computeIndices_toWord, computeIndices_toWord]

/-! ## The packed form -/

/-- Unpacking gives back the packed tuple: the fields below a field are cut off one by one. -/
theorem unpack_pack (t : IndexTuple) : unpack (pack t) = t := by
  rw [unpack, pack, IndexTuple.mk.injEq]
  refine ⟨?_, ?_, ?_, ?_⟩
  all_goals repeat rw [BitVec.extractLsb'_append_eq_of_le (by decide)]
  · exact BitVec.extractLsb'_eq_self
  all_goals exact BitVec.extractLsb'_append_eq_right

/-- Packing gives back the unpacked form: its four slices joined are all of it. -/
theorem pack_unpack (p : BitVec 36) : pack (unpack p) = p := by
  rw [pack, unpack, slice_append_slice p 18 9 9, slice_append_slice p 9 9 18,
    slice_append_slice p 0 9 27]
  exact BitVec.extractLsb'_eq_self

/-- The packed result is the page number, the address bits 47:12 (R45). -/
theorem pack_computeIndices (a : VirtualAddress) : pack (computeIndices a) = pageNumber a := by
  simp only [pack, computeIndices, ptIndex_slice, shift]
  rw [slice_append_slice a 30 9 9, slice_append_slice a 21 9 18, slice_append_slice a 12 9 27]
  rfl

/-- Settles O31: unpacking the ports gives each port, and the packed result is four slices joined. -/
theorem packedFormIsAView : Obligations.PackedFormIsAView :=
  ⟨fun s => IndexTuple.mk.inj (unpack_pack s.outputs), unpack_pack, pack_unpack, pack_computeIndices⟩

/-- The page number alone fixes the tuple. -/
theorem computeIndices_eq_unpack_pageNumber (a : VirtualAddress) :
    computeIndices a = unpack (pageNumber a) := by
  rw [← pack_computeIndices, unpack_pack]

/-- The bits above 47 are no part of the page number. -/
theorem pageNumber_withHigh (h : BitVec 16) (a : VirtualAddress) :
    pageNumber (withHigh h a) = pageNumber a :=
  calc (h ++ a.extractLsb' 0 48).extractLsb' 12 36
    _ = (a.extractLsb' 0 48).extractLsb' 12 36 :=
        BitVec.extractLsb'_append_eq_of_add_le (by decide)
    _ = a.extractLsb' 12 36 := BitVec.extractLsb'_extractLsb'_of_le (by decide)

/-- Settles O27: the tuple is a function of bits 47:12, which an address shares with every other high
part. -/
theorem nonCanonicalAddressesAreOrdinary : Obligations.NonCanonicalAddressesAreOrdinary := by
  have hpage : ∀ a b : VirtualAddress, pageNumber a = pageNumber b → SameOutputs a b :=
    fun a b h => sameOutputs_of_computeIndices_eq (by
      rw [computeIndices_eq_unpack_pageNumber, h, ← computeIndices_eq_unpack_pageNumber])
  exact ⟨hpage, fun a => hpage a _ (pageNumber_withHigh _ a).symm⟩

/-! ## Wider words -/

@[simp] theorem field_computeIndicesOfWidth {w : Nat} (a : BitVec w) (l : Level) :
    field (computeIndicesOfWidth a) l = extractField (shift l) a := by cases l <;> rfl

/-- Two words, of whatever widths, have the same field when they agree on its nine bits. -/
theorem extractField_congr {w w' : Nat} {s : Nat} {a : BitVec w} {b : BitVec w'}
    (h : ∀ k < 9, a.getLsbD (s + k) = b.getLsbD (s + k)) : extractField s a = extractField s b := by
  apply BitVec.eq_of_getLsbD_eq
  intro k hk
  rw [extractField_getLsbD, extractField_getLsbD, h k hk]

/-- Two words, of whatever widths, have the same tuple when they agree on bits 47:0. -/
theorem computeIndicesOfWidth_congr {w w' : Nat} {a : BitVec w} {b : BitVec w'}
    (h : ∀ i ≤ 47, a.getLsbD i = b.getLsbD i) :
    computeIndicesOfWidth a = computeIndicesOfWidth b := by
  refine tuple_ext fun l => ?_
  rw [field_computeIndicesOfWidth, field_computeIndicesOfWidth]
  refine extractField_congr fun k hk => ?_
  have hb := shift_bounds l
  exact h _ (by omega)

/-- Settles O39: bits 47:0 fix the tuple at every width, below 64 too, and the low 64 bits hold them. -/
theorem widerIntegersIgnoreBitsAbove47 : Obligations.WiderIntegersIgnoreBitsAbove47 := by
  refine ⟨fun w a _ => ?_, fun w a b _ h => computeIndicesOfWidth_congr h, fun a => rfl⟩
  have hlow : ∀ i ≤ 47, a.getLsbD i = (a.setWidth 64).getLsbD i := fun i hi => by
    have hi64 : i < 64 := by omega
    rw [BitVec.getLsbD_setWidth, decide_eq_true hi64, Bool.true_and]
  exact computeIndicesOfWidth_congr hlow

/-- Settles O33: nothing is cut off, and the new bits are zero. -/
theorem widerCopyIsZeroExtended : Obligations.WiderCopyIsZeroExtended := by
  intro n f hn
  refine ⟨BitVec.toNat_setWidth_of_le hn.le, fun k hk => ?_, fun k hk => ?_⟩
  · rw [widen, BitVec.getLsbD_setWidth, BitVec.getLsbD_of_ge f k hk, Bool.and_false]
  · have hkn : k < n := by omega
    rw [widen, BitVec.getLsbD_setWidth, decide_eq_true hkn, Bool.true_and]

/-! ## The result of an evaluation -/

/-- Settles O40: an evaluation leaves the address on `vaddr`, where each output is its extraction; bit by
bit, as a slice and as a number. -/
theorem fieldBitsAreAddressBits : Obligations.FieldBitsAreAddressBits := by
  refine ⟨rfl, rfl, rfl, rfl, fun l a s => ⟨s.drive a, evaluate_eq a s .addressDecomposer, ?_⟩⟩
  have hout : (s.drive a).output l = ptIndex l a := State.output_eq (s.drive a) l
  rw [hout]
  refine ⟨rfl, ptIndex_slice l a, ptIndex_toNat l a, fun k hk => ?_⟩
  rw [ptIndex_getLsbD, decide_eq_true hk, Bool.true_and]

/-- The elements of a result are the four slices of the address, outermost first. -/
theorem elements_drive (s : State) (a : VirtualAddress) : elements (s.drive a).outputs
    = [a.extractLsb' 39 9, a.extractLsb' 30 9, a.extractLsb' 21 9, a.extractLsb' 12 9] := by
  simp only [State.outputs_eq, State.drive_vaddr, computeIndices_eq_ofWord, elements, VA64.ofWord]

/-- Settles O32: the four slices stand in their order, and a nine-bit value is below 512. -/
theorem resultElementsAreInOrder : Obligations.ResultElementsAreInOrder := by
  intro a s
  refine ⟨s.drive a, evaluate_eq a s .addressDecomposer, ?_⟩
  rw [elements_drive]
  exact ⟨rfl, rfl, rfl, rfl, rfl, fun f _ => f.isLt⟩

end Sys2Proof.Proofs.Formats
end

section
/-! PROOFS. The operation of the block and its laws, 40_address_decomposer.md R56 to R72. An evaluation leaves
the address on `vaddr`, so each law of the outputs is one of `compute_indices`: of its bits, where single bits
are toggled or cut off, and of the page number, which is the packed result, where all fields are meant. -/

namespace Sys2Proof.Proofs.Decomposer

open Sys2Proof Sys2Proof.Machine
open Sys2Proof.Proofs.Scope Sys2Proof.Proofs.Interface Sys2Proof.Proofs.Decoding
open Sys2Proof.Proofs.Formats

/-! ## Completion and frame -/

/-- No operation writes a flag (R60). -/
theorem flagsWritten_eq_nil (i : Instr) : flagsWritten i = [] := by cases i <;> rfl

/-- An operation whose operand is on `vaddr` leaves the interface as it was. -/
theorem drive_word_eq_self {i : Instr} {s : State} (h : s.vaddr = i.word) : s.drive i.word = s := by
  rw [← h, State.drive_self]

/-- Settles O57: an operation drives its operand, which changes nothing where it was driven before. -/
theorem operandStandsOnVaddr : Obligations.OperandStandsOnVaddr := fun i s =>
  ⟨s.drive i.word, exec_eq i s, State.drive_vaddr s i.word, drive_word_eq_self,
    flagsWritten_eq_nil i⟩

/-- Settles O22: driving the operand that is on `vaddr` changes nothing, and a step drives no other. -/
theorem evaluationHasNoSideEffect : Obligations.EvaluationHasNoSideEffect := by
  refine ⟨flagsWritten_eq_nil, fun i s h => ?_, fun u s => stepOf_eq s u⟩
  rw [exec_eq, drive_word_eq_self h]

/-- Settles O20: each answers a next state, whatever it is given. -/
theorem everyEvaluationCompletes : Obligations.EveryEvaluationCompletes :=
  ⟨fun i s => ⟨s.drive i.word, exec_eq i s⟩, fun u s => ⟨s, stepOf_eq s u⟩, completes_evaluate⟩

/-- Settles O19: the state that every evaluation of `a` answers is the one with `a` on `vaddr`. -/
theorem resultDependsOnTheAddressAlone : Obligations.ResultDependsOnTheAddressAlone := by
  intro a
  have heval : ∀ s, evaluate .addressDecomposer a s = .next (State.reset.drive a) := fun s =>
    (evaluate_eq_of_any_state .addressDecomposer a s State.reset).trans (evaluate_eq a _ _)
  refine ⟨State.reset.drive a, heval, heval _, fun s hv => ?_⟩
  rw [State.outputs_eq, State.outputs_eq, State.drive_vaddr, hv]

/-! ## The four fields -/

/-- A word just driven has its index on the output of each level. -/
theorem output_drive_eq_ptIndex (s : State) (a : VirtualAddress) (l : Level) :
    (s.drive a).output l = ptIndex l a :=
  State.output_eq (s.drive a) l

/-- A word just driven has its tuple on the outputs. -/
theorem outputs_drive (s : State) (a : VirtualAddress) : (s.drive a).outputs = computeIndices a :=
  State.outputs_eq (s.drive a)

/-- R56's corner cases and worked example. -/
def cornerCases : List (VirtualAddress × IndexTuple) :=
  [(0, ⟨0, 0, 0, 0⟩), (0xFFFFFFFFFFFFFFFF, ⟨511, 511, 511, 511⟩),
    (0xFFFF000000000FFF, ⟨0, 0, 0, 0⟩), (0xFFFF800000000000, ⟨256, 0, 0, 0⟩),
    (0x0000800000000000, ⟨256, 0, 0, 0⟩), (0x0000123456789ABC, ⟨36, 209, 179, 393⟩)]

theorem computeIndices_of_mem_cornerCases : ∀ p ∈ cornerCases, computeIndices p.1 = p.2 := by decide

/-- Settles O13: the operand just driven is shifted and masked on each port, which is its slice. -/
theorem computeIndicesDrivesTheFourFields : Obligations.ComputeIndicesDrivesTheFourFields := by
  refine ⟨fun a s => ⟨s.drive a, exec_eq (.computeIndices a) s, ?_⟩, fun s p hp => ?_⟩
  · exact ⟨rfl, ptIndex_slice .l4 a, rfl, ptIndex_slice .l3 a, rfl, ptIndex_slice .l2 a,
      rfl, ptIndex_slice .l1 a, rfl, rfl, flagsWritten_eq_nil _⟩
  · refine ⟨s.drive p.1, exec_eq (.computeIndices p.1) s, ?_⟩
    rw [outputs_drive, computeIndices_of_mem_cornerCases p hp]

/-- Settles O36: the shift is a division, the mask a remainder, and the extraction the one of the other;
the quotient of a 64-bit number by 2^s is below 2^(64-s). -/
theorem shiftAndMaskAreArithmetic : Obligations.ShiftAndMaskAreArithmetic := by
  refine ⟨⟨rfl, rfl, rfl, rfl, fun l => ?_⟩, toNat_and_indexMask, fun l a => ?_, toNat_extractField⟩
  · have hb := shift_bounds l
    omega
  · rw [← shift_eq_number, toNat_ushiftRight_eq_div]
    refine ⟨rfl, Nat.le_sub_one_of_lt ?_, ptIndex_toNat l a, ptIndex_toNat l a⟩
    have hb := shift_bounds l
    have hpow : 2 ^ shift l * 2 ^ (64 - shift l) = 2 ^ 64 := by
      rw [← pow_add, Nat.add_sub_cancel' (by omega)]
    exact Nat.div_lt_of_lt_mul (hpow ▸ a.isLt)

/-! ## The page number -/

/-- The packed outputs of a word just driven are its page number (R65). -/
theorem packed_drive (s : State) (a : VirtualAddress) : (s.drive a).packed = pageNumber a :=
  pack_computeIndices a

/-- Two addresses have the same tuple exactly when they have the same page number. -/
theorem computeIndices_eq_iff_pageNumber_eq (a b : VirtualAddress) :
    computeIndices a = computeIndices b ↔ pageNumber a = pageNumber b := by
  constructor
  · intro h
    rw [← pack_computeIndices, h, pack_computeIndices]
  · intro h
    rw [computeIndices_eq_unpack_pageNumber, h, ← computeIndices_eq_unpack_pageNumber]

/-- Two addresses with the same page number give the same on every port of every unit. -/
theorem sameOutputs_of_pageNumber_eq {a b : VirtualAddress} (h : pageNumber a = pageNumber b) :
    SameOutputs a b :=
  sameOutputs_of_computeIndices_eq ((computeIndices_eq_iff_pageNumber_eq a b).mpr h)

/-- The in-page offset is no part of the page number. -/
theorem pageNumber_withOffset (a : VirtualAddress) (k : BitVec 12) :
    pageNumber (withOffset a k) = pageNumber a :=
  calc (a.extractLsb' 12 52 ++ k).extractLsb' 12 36
    _ = (a.extractLsb' 12 52).extractLsb' 0 36 := BitVec.extractLsb'_append_eq_of_le (by decide)
    _ = (a.extractLsb' 48 16 ++ a.extractLsb' 12 36).extractLsb' 0 36 := by
        rw [slice_append_slice a 12 36 16]
    _ = a.extractLsb' 12 36 := BitVec.extractLsb'_append_eq_right

/-- Settles O23: the offset is no part of the page number. -/
theorem offsetNeverMatters : Obligations.OffsetNeverMatters := fun a k =>
  sameOutputs_of_pageNumber_eq (pageNumber_withOffset a k)

/-- Settles O24: the bits above 47 are no part of the page number. -/
theorem highBitsNeverMatter : Obligations.HighBitsNeverMatter := fun a h =>
  sameOutputs_of_pageNumber_eq (pageNumber_withHigh h a)

/-- Bit `k` of the output of a level, a word just driven. -/
theorem output_drive_getLsbD (s : State) (a : VirtualAddress) (l : Level) {k : Nat} (hk : k < 9) :
    ((s.drive a).output l).getLsbD k = a.getLsbD (shift l + k) := by
  rw [output_drive_eq_ptIndex, ptIndex_getLsbD, decide_eq_true hk, Bool.true_and]

/-- Settles O30: the packed outputs are the page number; each output's bits are those from its shift up. -/
theorem packedResultIsThePageNumber : Obligations.PackedResultIsThePageNumber := fun a s =>
  ⟨s.drive a, evaluate_eq a s .addressDecomposer, packed_drive s a, fun _ hk =>
    ⟨output_drive_getLsbD s a .l4 hk, output_drive_getLsbD s a .l3 hk,
      output_drive_getLsbD s a .l2 hk, output_drive_getLsbD s a .l1 hk⟩⟩

/-- The page number as a number. -/
theorem toNat_pageNumber (a : VirtualAddress) : (pageNumber a).toNat = a.toNat / 4096 % 2 ^ 36 := by
  rw [pageNumber, BitVec.extractLsb'_toNat, Nat.shiftRight_eq_div_pow]

/-- `d` pages further on, the page number is `d` more modulo 2^36 (R68). -/
theorem toNat_pageNumber_add_pages (a : VirtualAddress) (d : Nat) :
    (pageNumber (BitVec.ofNat 64 ((a.toNat + d * 4096) % 2 ^ 64))).toNat
      = ((pageNumber a).toNat + d) % 2 ^ 36 := by
  rw [toNat_pageNumber, toNat_pageNumber, BitVec.toNat_ofNat]
  omega

/-- Settles O37: the packed outputs are the page number, which counts the pages. -/
theorem steppingByPagesCountsUp : Obligations.SteppingByPagesCountsUp := by
  intro a d s
  refine ⟨s.drive a, _, evaluate_eq a s _, evaluate_eq _ s _, packed_drive s a, ?_⟩
  rw [packed_drive, packed_drive]
  exact toNat_pageNumber_add_pages a d

/-! ## Recomposition -/

/-- Recomposing puts the offset below the packed tuple: the shifted fields do not overlap. -/
theorem recompose_eq_append (t : IndexTuple) (o : BitVec 12) : recompose t o = pack t ++ o :=
  calc recompose t o
    _ = (pack t ++ o).setWidth 48 := by
        simp only [recompose, pack, BitVec.setWidth_append_eq_shiftLeft_setWidth_or,
          BitVec.shiftLeft_or_distrib, ← BitVec.shiftLeft_add]
    _ = pack t ++ o := BitVec.setWidth_eq _

/-- The tuple of an address and its in-page offset recompose to its bits 47:0. -/
theorem recompose_computeIndices (a : VirtualAddress) :
    recompose (computeIndices a) (a.extractLsb' 0 12) = a.extractLsb' 0 48 := by
  rw [recompose_eq_append, pack_computeIndices]
  exact slice_append_slice a 0 12 36

/-- The tuple recomposed, with any offset, is the tuple of the address that results. -/
theorem computeIndices_recompose (t : IndexTuple) (o : BitVec 12) :
    computeIndices ((recompose t o).setWidth 64) = t := by
  have hpage : pageNumber ((recompose t o).setWidth 64) = pack t :=
    calc ((recompose t o).setWidth 64).extractLsb' 12 36
      _ = (pack t ++ o).extractLsb' 12 36 := by
          rw [BitVec.extractLsb'_setWidth_of_le (by decide), recompose_eq_append]
      _ = pack t := BitVec.extractLsb'_append_eq_left
  rw [computeIndices_eq_unpack_pageNumber, hpage, unpack_pack]

/-- Settles O34: recomposing inverts `compute_indices` on bits 47:0, and `compute_indices` inverts it. -/
theorem recompositionGivesBackTheAddress : Obligations.RecompositionGivesBackTheAddress := by
  refine ⟨fun a s => ?_, fun a b s => ?_, fun r s => ?_⟩
  · refine ⟨s.drive a, evaluate_eq a s _, ?_⟩
    rw [outputs_drive, recompose_computeIndices]
  · refine ⟨s.drive a, s.drive b, evaluate_eq a s _, evaluate_eq b s _, ?_⟩
    rw [outputs_drive, outputs_drive]
    exact computeIndices_eq_iff_pageNumber_eq a b
  · refine ⟨_, evaluate_eq _ s _, ?_⟩
    rw [outputs_drive, computeIndices_recompose]

/-- Every value is the index of a level for some address. -/
theorem exists_ptIndex_eq (l : Level) (v : Index) : ∃ a, ptIndex l a = v := by
  refine ⟨(recompose ⟨v, v, v, v⟩ 0).setWidth 64, ?_⟩
  rw [← field_computeIndices, computeIndices_recompose]
  cases l <;> rfl

/-- Settles O18: a remainder by 512 is at most 511, and each of the 512 values is an index of some
address. -/
theorem everyFieldLiesInRange : Obligations.EveryFieldLiesInRange := by
  intro l
  refine ⟨fun a s => ⟨s.drive a, evaluate_eq a s _, ?_⟩, fun v hv s => ?_⟩
  · rw [toNat_and_indexMask, toNat_ushiftRight_eq_div, output_drive_eq_ptIndex]
    exact ⟨by omega, ptIndex_toNat l a⟩
  · obtain ⟨a, ha⟩ := exists_ptIndex_eq l (BitVec.ofNat 9 v)
    refine ⟨a, s.drive a, evaluate_eq a s _, ?_⟩
    rw [output_drive_eq_ptIndex, ha, BitVec.toNat_ofNat]
    exact Nat.mod_eq_of_lt (by omega)

/-! ## The reader of a bit -/

/-- Each bit 12 to 47 stands in the range of a level, at its place there (R63). -/
theorem exists_level_of_bit {i : Nat} (hlo : 12 ≤ i) (hhi : i ≤ 47) :
    ∃ l : Level, l.number = (i - 12) / 9 + 1 ∧ i = shift l + (i - 12) % 9 := by
  obtain ⟨l, hl⟩ := exists_number_eq (n := (i - 12) / 9 + 1) (by omega) (by omega)
  refine ⟨l, hl, ?_⟩
  rw [shift_eq_number, hl]
  omega

/-- The bits in the range of a level are read by its field. -/
theorem readerOfBit_shift_add (l : Level) {k : Nat} (hk : k < 9) :
    readerOfBit (shift l + k) = some (l, k) := by
  have hlow : ¬ shift l + k < 12 := by
    have hb := shift_bounds l
    omega
  have hquot : (shift l + k - 12) / 9 = l.number - 1 := by
    rw [shift_eq_number]
    omega
  have hrem : (shift l + k - 12) % 9 = k := by
    rw [shift_eq_number]
    omega
  rw [readerOfBit, if_neg hlow, hquot, hrem]
  cases l <;> rfl

/-- The other bits are read by no field. -/
theorem readerOfBit_eq_none {i : Nat} (h : i < 12 ∨ 47 < i) : readerOfBit i = none := by
  rcases h with hlow | hhigh
  · exact if_pos hlow
  · obtain ⟨q, hq⟩ : ∃ q, (i - 12) / 9 = q + 4 := ⟨(i - 12) / 9 - 4, by omega⟩
    rw [readerOfBit, if_neg (by omega), hq]
    rfl

/-- A field reads only the bits in the range of its level. -/
theorem eq_shift_add_of_readerOfBit {i k : Nat} {l : Level} (h : readerOfBit i = some (l, k)) :
    i = shift l + k := by
  by_cases hi : i < 12 ∨ 47 < i
  · rw [readerOfBit_eq_none hi] at h
    cases h
  · obtain ⟨l', -, hplace⟩ := exists_level_of_bit (i := i) (by omega) (by omega)
    rw [hplace, readerOfBit_shift_add l' (Nat.mod_lt _ (by decide))] at h
    cases h
    exact hplace

/-- Settles O28: the bits of a level's range are the ones its field reads, each as its own bit. -/
theorem eachBitIsReadByExactlyOneField : Obligations.EachBitIsReadByExactlyOneField := by
  refine ⟨fun i hlo hhi => ?_, fun i hi => readerOfBit_eq_none hi, fun a s => ?_⟩
  · obtain ⟨l, hnumber, hplace⟩ := exists_level_of_bit hlo hhi
    refine ⟨l, ?_, hnumber⟩
    rw [← readerOfBit_shift_add l (Nat.mod_lt (i - 12) (by decide)), ← hplace]
  · refine ⟨s.drive a, evaluate_eq a s _, fun l k hk => ?_⟩
    have hb := shift_bounds l
    exact ⟨shift l + k, by omega, by omega, readerOfBit_shift_add l hk,
      output_drive_getLsbD s a l hk, fun j hj => eq_shift_add_of_readerOfBit hj⟩

/-! ## Toggling a bit -/

/-- Bit `j` of an address whose bit `i` is toggled. -/
theorem getLsbD_toggleBit (a : VirtualAddress) (i j : Nat) :
    (toggleBit a i).getLsbD j = (a.getLsbD j ^^ (decide (i < 64) && decide (i = j))) := by
  rw [toggleBit, BitVec.getLsbD_xor, BitVec.getLsbD_twoPow]

/-- Toggling a bit leaves the others as they were. -/
theorem getLsbD_toggleBit_of_ne (a : VirtualAddress) {i j : Nat} (h : i ≠ j) :
    (toggleBit a i).getLsbD j = a.getLsbD j := by
  rw [getLsbD_toggleBit, decide_eq_false h, Bool.and_false, Bool.xor_false]

/-- Toggling a bit of a level's range toggles the bit of its index that reads it. -/
theorem ptIndex_toggleBit_shift_add (l : Level) (a : VirtualAddress) {k : Nat} (hk : k < 9) :
    ptIndex l (toggleBit a (shift l + k)) = ptIndex l a ^^^ BitVec.twoPow 9 k := by
  have hb := shift_bounds l
  have hword : shift l + k < 64 := by omega
  apply BitVec.eq_of_getLsbD_eq
  intro j hj
  rw [BitVec.getLsbD_xor, ptIndex_getLsbD, ptIndex_getLsbD, getLsbD_toggleBit, BitVec.getLsbD_twoPow]
  simp [hj, hk, hword]

/-- Toggling a bit of one level's range leaves the index of every other level. -/
theorem ptIndex_toggleBit_of_ne {l l' : Level} (h : l' ≠ l) (a : VirtualAddress) {k : Nat}
    (hk : k < 9) : ptIndex l' (toggleBit a (shift l + k)) = ptIndex l' a :=
  ptIndex_congr fun k' hk' =>
    getLsbD_toggleBit_of_ne a (shift_disjoint h.symm k k' hk hk')

/-- A value with one of its bits toggled is another value. -/
theorem xor_twoPow_ne_self {w k : Nat} (x : BitVec w) (hk : k < w) : x ^^^ BitVec.twoPow w k ≠ x := by
  intro h
  have hbit := congrArg (BitVec.getLsbD · k) h
  simp [hk] at hbit

/-- Settles O29: a bit of a level's range is read by that level alone, and any other bit by none. -/
theorem togglingABitChangesOneOutputBit : Obligations.TogglingABitChangesOneOutputBit := by
  intro a s i
  refine ⟨fun hlo hhi => ?_, fun hi _ => ?_⟩
  · obtain ⟨l, hnumber, hplace⟩ := exists_level_of_bit hlo hhi
    have hk : (i - 12) % 9 < 9 := Nat.mod_lt _ (by decide)
    refine ⟨l, s.drive a, s.drive (toggleBit a i), hnumber, evaluate_eq a s _, evaluate_eq _ s _, ?_⟩
    simp only [output_drive_eq_ptIndex]
    have htoggle : ptIndex l (toggleBit a i) = ptIndex l a ^^^ BitVec.twoPow 9 ((i - 12) % 9) := by
      rw [← ptIndex_toggleBit_shift_add l a hk, ← hplace]
    refine ⟨htoggle, htoggle ▸ xor_twoPow_ne_self _ hk, fun l' hl' => ?_⟩
    rw [hplace]
    exact ptIndex_toggleBit_of_ne hl' a hk
  · exact SameOutputs.of_bits fun j hlo hhi => getLsbD_toggleBit_of_ne a (by omega)

/-! ## Narrow sources -/

/-- Of an address kept in `w` bits the bits from `w` up are zero. -/
theorem getLsbD_narrowed {w : Nat} (hw : w ≤ 64) (a : VirtualAddress) (i : Nat) :
    (narrowed w a).getLsbD i = (decide (i < w) && a.getLsbD i) := by
  rw [narrowed, BitVec.getLsbD_setWidth, BitVec.getLsbD_setWidth]
  by_cases hi : i < w
  · have hi64 : i < 64 := by omega
    simp [hi, hi64]
  · simp [hi]

/-- Of an address kept in `w` bits each field keeps its low `w - s` bits: all of them from `w = s + 9` up,
none from `w = s` down (R72). -/
theorem toNat_ptIndex_narrowed {w : Nat} (hw : w ≤ 64) (l : Level) (a : VirtualAddress) :
    (ptIndex l (narrowed w a)).toNat = (ptIndex l a).toNat % 2 ^ (w - shift l) := by
  apply Nat.eq_of_testBit_eq
  intro k
  have hkept : decide (shift l + k < w) = decide (k < w - shift l) := by
    rw [decide_eq_decide]
    omega
  calc (ptIndex l (narrowed w a)).getLsbD k
    _ = (decide (k < w - shift l) && (ptIndex l a).getLsbD k) := by
        rw [ptIndex_getLsbD, ptIndex_getLsbD, getLsbD_narrowed hw, hkept, Bool.and_left_comm]
    _ = ((ptIndex l a).toNat % 2 ^ (w - shift l)).testBit k := by
        rw [Nat.testBit_mod_two_pow, BitVec.getLsbD]

/-- A source that holds all nine bits of a field gives the complete field. -/
theorem ptIndex_narrowed_of_le {w : Nat} (hw : w ≤ 64) {l : Level} (h : shift l + 9 ≤ w)
    (a : VirtualAddress) : ptIndex l (narrowed w a) = ptIndex l a := by
  have hlt : (ptIndex l a).toNat < 2 ^ (w - shift l) :=
    (ptIndex l a).isLt.trans_le (Nat.pow_le_pow_right (by decide) (by omega))
  apply BitVec.eq_of_toNat_eq
  rw [toNat_ptIndex_narrowed hw, Nat.mod_eq_of_lt hlt]

/-- A source that ends below a field gives 0. -/
theorem ptIndex_narrowed_eq_zero {w : Nat} (hw : w ≤ 64) {l : Level} (h : w ≤ shift l)
    (a : VirtualAddress) : ptIndex l (narrowed w a) = 0 := by
  apply BitVec.eq_of_toNat_eq
  rw [toNat_ptIndex_narrowed hw, Nat.sub_eq_zero_of_le h, pow_zero, Nat.mod_one]
  rfl

/-- Settles O38: each field of the narrowed address is a remainder, whose divisor is too large to matter or
is 1 at the two ends. -/
theorem narrowSourceTruncatesFields : Obligations.NarrowSourceTruncatesFields := by
  rintro w v a l s hw rfl
  refine ⟨s.drive (narrowed w a), evaluate_eq _ s _, fun h => ?_, fun h => ?_, fun _ _ => ?_,
    fun h => ?_⟩
  · rw [output_drive_eq_ptIndex, ptIndex_narrowed_of_le hw.le h]
  · rw [output_drive_eq_ptIndex, ptIndex_narrowed_eq_zero hw.le h]
  · rw [output_drive_eq_ptIndex, toNat_ptIndex_narrowed hw.le]
  · refine tuple_ext fun l' => ?_
    have hb := shift_bounds l'
    rw [outputs_drive, field_computeIndices, field_computeIndices,
      ptIndex_narrowed_of_le hw.le (by omega)]

/-- Settles O56: zero-extension keeps the number, and the low `w` bits of the result are what was
extended. -/
theorem narrowNumbersAreZeroExtended : Obligations.NarrowNumbersAreZeroExtended := by
  intro w v hw
  constructor
  · rw [← BitVec.toNat_setWidth_of_le hw]
    exact decodeCall_call (.computeIndices (v.setWidth 64))
  · rw [narrowed, BitVec.setWidth_setWidth_of_le v hw, BitVec.setWidth_eq]

end Sys2Proof.Proofs.Decomposer
end

section
/-! PROOFS. The unit `page_table_index_extractor` and its four levels, 41_page_table_index_extractor.md R73 to
R80. An extractor carries the index of its level of the word on `vaddr`, alone as inside the block, so what the
rules of the four levels say is proved once, of every level, and each rule is read off at its own. -/

namespace Sys2Proof.Proofs.Extractor

open Sys2Proof Sys2Proof.Machine
open Sys2Proof.Proofs.Decoding Sys2Proof.Proofs.Formats Sys2Proof.Proofs.Decomposer

/-! ## The port of an extractor -/

/-- An extractor used alone has one port, that of its level. -/
theorem ports_extractor (s : State) (l : Level) :
    s.ports (.pageTableIndexExtractor l) = [(l, s.output l)] := rfl

/-- Settles O41: a step leaves the word on `vaddr`, whose index is on the one port. -/
theorem extractorDrivesItsLevel : Obligations.ExtractorDrivesItsLevel := by
  refine ⟨rfl, rfl, rfl, rfl, fun l s => ⟨shift_eq_number l, ?_, ?_, s, stepOf_eq s _, ?_⟩⟩
  · cases l <;> decide
  · cases l <;> decide
  · rw [← shift_eq_number, State.output_eq]
    exact ⟨rfl, ptIndex_slice l s.vaddr, congrArg (fun v => [(l, v)]) (State.output_eq s l), rfl⟩

/-! ## The block as its four extractors -/

/-- The block drives the output of each level once. -/
theorem count_drivenLevels_block (l : Level) : (drivenLevels .addressDecomposer).count l = 1 := by
  cases l <;> rfl

/-- Inside the block each extractor has its port. -/
theorem mem_ports_block (s : State) (l : Level) : (l, s.output l) ∈ s.ports .addressDecomposer := by
  have hdriven : l ∈ drivenLevels .addressDecomposer :=
    List.count_pos_iff.mp (by rw [count_drivenLevels_block]; decide)
  exact List.mem_map_of_mem hdriven

/-- The first of several operations puts its operand on `vaddr`, and the others follow from there. -/
theorem execAll_cons (i : Instr) (is : List Instr) (s : State) :
    execAll (i :: is) s = execAll is (s.drive i.word) := by
  rw [execAll, exec_eq]

/-- Operations on the word that is on `vaddr` change nothing. -/
theorem execAll_eq_self {is : List Instr} {s : State} (h : ∀ i ∈ is, s.vaddr = i.word) :
    execAll is s = .next s := by
  induction is with
  | nil => rfl
  | cons i is ih =>
    rw [execAll_cons, drive_word_eq_self (h i List.mem_cons_self)]
    exact ih fun j hj => h j (List.mem_cons_of_mem i hj)

/-- Extractions of one word, at least one of them, leave that word on `vaddr`. -/
theorem execAll_extractions {ls : List Level} (hne : ls ≠ []) (a : VirtualAddress) (s : State) :
    execAll (ls.map fun l => extraction l a) s = .next (s.drive a) := by
  cases ls with
  | nil => exact absurd rfl hne
  | cons l ls =>
    rw [List.map_cons, execAll_cons, word_extraction]
    refine execAll_eq_self fun i hi => ?_
    obtain ⟨l', -, rfl⟩ := List.mem_map.mp hi
    rw [State.drive_vaddr, word_extraction]

/-- Settles O42: extractions of one word leave it on `vaddr`, as `compute_indices` of it does, and the ports
of the block are one for each level. -/
theorem blockIsItsFourInstances : Obligations.BlockIsItsFourInstances := by
  refine ⟨fun ls a s hall => ?_, fun s => List.map_eq_flatMap, count_drivenLevels_block,
    fun a s => ⟨s.drive a, evaluate_eq a s _, outputs_drive s a⟩⟩
  rw [execAll_extractions (List.ne_nil_of_mem (hall .l4)), exec_eq]
  rfl

/-! ## The four extractions -/

/-- A page-table index is the field of its level in the VA64 format. -/
theorem ptIndex_eq_field_ofWord (l : Level) (a : VirtualAddress) : ptIndex l a
    = field ⟨(VA64.ofWord a).l4, (VA64.ofWord a).l3, (VA64.ofWord a).l2, (VA64.ofWord a).l1⟩ l := by
  rw [← computeIndices_eq_ofWord, field_computeIndices]

/-- An extraction puts its operand on `vaddr`, where the port of the level has its index. -/
theorem exec_extraction (l : Level) (a : VirtualAddress) (s : State) :
    ∃ t, exec (extraction l a) s = .next t ∧ t.output l = ptIndex l a := by
  refine ⟨s.drive a, ?_, output_drive_eq_ptIndex s a l⟩
  rw [exec_eq, word_extraction]

/-- R75 to R78, of every level: the one port of the unit carries the shifted and masked word, which is its
slice, its quotient and remainder and its field of VA64, and no flag is written. -/
theorem exec_extraction_drives_field (l : Level) (a : VirtualAddress) (s : State) :
    ∃ t, exec (extraction l a) s = .next t ∧
      t.output l = ((a >>> shift l) &&& 0x1FF).setWidth 9 ∧
      t.output l = a.extractLsb' (shift l) 9 ∧
      (t.output l).toNat = a.toNat / 2 ^ shift l % 512 ∧
      t.output l = field
        ⟨(VA64.ofWord a).l4, (VA64.ofWord a).l3, (VA64.ofWord a).l2, (VA64.ofWord a).l1⟩ l ∧
      t.ports (.pageTableIndexExtractor l) = [(l, t.output l)] ∧
      flagsWritten (extraction l a) = [] := by
  obtain ⟨t, hexec, hout⟩ := exec_extraction l a s
  refine ⟨t, hexec, ?_, ?_, ?_, ?_, ports_extractor t l, flagsWritten_eq_nil _⟩
  · exact hout
  · rw [hout, ptIndex_slice]
  · rw [hout, ptIndex_toNat]
  · rw [hout, ptIndex_eq_field_ofWord]

/-- The corner cases and worked examples of R75 to R78. -/
def fieldCornerCases : Level → List (VirtualAddress × Index)
  | .l4 => [(0x8000000000, 1), (0x4000000000, 0), (0x7FFFFFFFFF, 0), (0x800000000000, 256),
      (0x1000000000000, 0), (0xFF8000000000, 511), (0xFFFF800000000000, 256),
      (0x0000123456789ABC, 36)]
  | .l3 => [(0x40000000, 1), (0x20000000, 0), (0x3FFFFFFF, 0), (0x4000000000, 256),
      (0x8000000000, 0), (0x7FC0000000, 511), (0x0000123456789ABC, 209)]
  | .l2 => [(0x200000, 1), (0x100000, 0), (0x1FFFFF, 0), (0x20000000, 256), (0x40000000, 0),
      (0x3FE00000, 511), (0x0000123456789ABC, 179)]
  | .l1 => [(0x1000, 1), (0x800, 0), (0xFFF, 0), (0x100000, 256), (0x200000, 0), (0x1FF000, 511),
      (0x0000123456789ABC, 393)]

theorem map_ptIndex_fieldCornerCases (l : Level) :
    (fieldCornerCases l).map (fun p => ptIndex l p.1) = (fieldCornerCases l).map Prod.snd := by
  cases l <;> rfl

theorem ptIndex_of_mem_fieldCornerCases (l : Level) :
    ∀ p ∈ fieldCornerCases l, ptIndex l p.1 = p.2 :=
  List.map_inj_left.mp (map_ptIndex_fieldCornerCases l)

/-- After the extraction of a corner case its value is on the port. -/
theorem exec_extraction_of_mem_fieldCornerCases (l : Level) (s : State) :
    ∀ p ∈ fieldCornerCases l, ∃ t, exec (extraction l p.1) s = .next t ∧ t.output l = p.2 := by
  intro p hp
  rw [← ptIndex_of_mem_fieldCornerCases l p hp]
  exact exec_extraction l p.1 s

/-- A slice of a shifted word is the slice that much further up. -/
theorem slice_ushiftRight {w : Nat} (a : BitVec w) (s start len : Nat) :
    (a >>> s).extractLsb' start len = a.extractLsb' (s + start) len := by
  apply BitVec.eq_of_getLsbD_eq
  intro k hk
  rw [BitVec.getLsbD_extractLsb', BitVec.getLsbD_extractLsb', BitVec.getLsbD_ushiftRight, Nat.add_assoc]

/-- Settles O14: level 4 of the extractions; its shift leaves the HIGH bits above the field. -/
theorem ptIndexL4DrivesItsField : Obligations.PtIndexL4DrivesItsField :=
  ⟨exec_extraction_drives_field .l4, exec_extraction_of_mem_fieldCornerCases .l4,
    fun a => slice_ushiftRight a 39 9 16, rfl⟩

/-- Settles O15: level 3 of the extractions; 32 bits hold the two lowest bits of its field. -/
theorem ptIndexL3DrivesItsField : Obligations.PtIndexL3DrivesItsField := by
  refine ⟨exec_extraction_drives_field .l3, exec_extraction_of_mem_fieldCornerCases .l3,
    fun a s => ?_⟩
  obtain ⟨t, hexec, hout⟩ := exec_extraction .l3 (narrowed 32 a) s
  refine ⟨t, hexec, ?_⟩
  calc (t.output .l3).toNat
    _ = (ptIndex .l3 (narrowed 32 a)).toNat := by rw [hout]
    _ = (ptIndex .l3 a).toNat % 2 ^ (32 - shift .l3) := toNat_ptIndex_narrowed (by decide) .l3 a
    _ = (a.extractLsb' 30 9).toNat % 4 := by rw [ptIndex_slice]; rfl

/-- Settles O16: level 2 of the extractions. -/
theorem ptIndexL2DrivesItsField : Obligations.PtIndexL2DrivesItsField :=
  ⟨exec_extraction_drives_field .l2, exec_extraction_of_mem_fieldCornerCases .l2⟩

/-- Settles O17: level 1 of the extractions. -/
theorem ptIndexL1DrivesItsField : Obligations.PtIndexL1DrivesItsField :=
  ⟨exec_extraction_drives_field .l1, exec_extraction_of_mem_fieldCornerCases .l1⟩

/-! ## Levels that do not exist -/

/-- Settles O43: a number that names no level is refused before the address is looked at. -/
theorem otherLevelsAreRefused : Obligations.OtherLevelsAreRefused := by
  refine ⟨fun n hn a s => ⟨?_, ?_⟩, fun l a => ?_⟩
  · rw [ptIndexOfNumber, ofNumber_eq_noSuchLevel hn]
    rfl
  · exact presentCall_of_error s (decodeCall_ptIndex_eq_noSuchLevel hn a.toNat)
  · rw [ptIndexOfNumber, ofNumber_number]
    rfl

/-! ## Independence of the extractors -/

/-- The tuple with the given field at each level. -/
def tupleOf (f : Level → Index) : IndexTuple where
  l4 := f .l4
  l3 := f .l3
  l2 := f .l2
  l1 := f .l1

@[simp] theorem field_tupleOf (f : Level → Index) (l : Level) : field (tupleOf f) l = f l := by
  cases l <;> rfl

/-- Any four values are the indices of some address: every tuple is a result (R66). -/
theorem exists_ptIndex_eq_all (f : Level → Index) : ∃ a, ∀ l, ptIndex l a = f l := by
  refine ⟨(recompose (tupleOf f) 0).setWidth 64, fun l => ?_⟩
  rw [← field_computeIndices, computeIndices_recompose, field_tupleOf]

/-- The index of one level can be set alone. -/
theorem exists_ptIndex_eq_and_others_eq (l : Level) (v : Index) (a : VirtualAddress) :
    ∃ b, ptIndex l b = v ∧ ∀ l', l' ≠ l → ptIndex l' b = ptIndex l' a := by
  obtain ⟨b, hb⟩ := exists_ptIndex_eq_all (Function.update (fun l' => ptIndex l' a) l v)
  refine ⟨b, ?_, fun l' hl' => ?_⟩
  · rw [hb, Function.update_self]
  · rw [hb, Function.update_of_ne hl']

/-- Settles O44: an index is a function of its nine bits, which no other level reads; and an extractor has
the same word on its input alone as inside the block. -/
theorem instancesAreIndependent : Obligations.InstancesAreIndependent := by
  refine ⟨fun l a b h => ptIndex_congr h, fun l v a s => ?_, fun l a s => ?_,
    fun l l' k k' hne hk hk' => shift_disjoint hne k k' hk hk'⟩
  · obtain ⟨b, hset, hothers⟩ := exists_ptIndex_eq_and_others_eq l v a
    refine ⟨b, s.drive a, s.drive b, evaluate_eq a s _, evaluate_eq b s _, ?_⟩
    simp only [output_drive_eq_ptIndex]
    exact ⟨hset, hothers⟩
  · exact ⟨s.drive a, s.drive a, (s.drive a).output l, evaluate_eq a s _, evaluate_eq a s _,
      mem_ports_block _ l, ports_extractor _ l⟩

end Sys2Proof.Proofs.Extractor
end

section
/-! PROOFS. What cannot go wrong, 60_exceptions.md R81 to R93. Nothing raises an exception, because what
completes neither faults nor is refused; and whether contexts share one block or have one each, every request
is answered with the reply that it asks for of itself alone. -/

namespace Sys2Proof.Proofs.Exceptions

open Sys2Proof Sys2Proof.Machine
open Sys2Proof.Proofs.Memory Sys2Proof.Proofs.Decomposer

/-! ## No exception -/

/-- What completes neither faults nor is refused. -/
theorem ne_fault_ne_refused_of_completes {o : Host.Outcome State Fault Refusal} (h : Completes o) :
    (∀ f, o ≠ .fault f) ∧ ∀ r, o ≠ .refused r := by
  obtain ⟨t, rfl⟩ := h
  exact ⟨fun _ hf => (nomatch hf), fun _ hr => (nomatch hr)⟩

/-- Settles O21: every operation and every step completes. -/
theorem noExceptionExistsOrIsRaised : Obligations.NoExceptionExistsOrIsRaised := by
  obtain ⟨hexec, hstep, -⟩ := everyEvaluationCompletes
  refine ⟨fun f => (nomatch f), fun i s => ?_, fun s => ?_⟩
  · exact ne_fault_ne_refused_of_completes (hexec i s)
  · exact ne_fault_ne_refused_of_completes (hstep .addressDecomposer s)

/-! ## Contexts with a block each -/

/-- A turn on the context's own block answers its request and leaves that request's address on the `vaddr`
of this block alone. -/
theorem serveApart_cons (r : Request) (rs : List Request) (own : Nat → State) :
    serveApart (r :: rs) own = replyFor r :: serveApart rs fun c =>
      if c = r.context then (own r.context).drive r.address else own c := by
  rw [serveApart, evaluate_eq]
  rfl

/-- Blocks of their own answer each request with the reply it asks for, whatever is on their inputs. -/
theorem serveApart_eq_map (rs : List Request) (own : Nat → State) :
    serveApart rs own = rs.map replyFor := by
  induction rs generalizing own with
  | nil => rfl
  | cons r rs ih => rw [serveApart_cons, ih, List.map_cons]

/-- Settles O53: shared or apart, the replies are those that the requests ask for. -/
theorem sharedAndSeparateInstancesAgree : Obligations.SharedAndSeparateInstancesAgree := fun rs s own =>
  (serve_eq_map rs s).trans (serveApart_eq_map rs own).symm

end Sys2Proof.Proofs.Exceptions
end

section
/-! PROOFS. Evaluations after reset, 70_reset_and_hazards.md R100: no evaluation needs a warm-up, because the
reply to a request is the same from the state that earlier requests leave and from the state at reset. -/

namespace Sys2Proof.Proofs.Hazards

open Sys2Proof Sys2Proof.Machine
open Sys2Proof.Proofs.Memory (serve_eq_map)

/-- Requests are answered alike from any two states: what stands on `vaddr` before them is not seen. -/
theorem serve_eq_of_any_state (rs : List Request) (s s' : State) : serve rs s = serve rs s' :=
  (serve_eq_map rs s).trans (serve_eq_map rs s').symm

/-- The replies to two sequences in a row are those to each, both served from the state at the start. -/
theorem serve_append (rs rs' : List Request) (s : State) :
    serve (rs ++ rs') s = serve rs s ++ serve rs' s := by
  simp only [serve_eq_map, List.map_append]

/-- Settles O50: the further request is answered apart from the sequence, and from reset as from any
state. -/
theorem noFirstEvaluationDiffers : Obligations.NoFirstEvaluationDiffers := by
  intro rs r s
  calc serve (rs ++ [r]) s
    _ = serve rs s ++ serve [r] s := serve_append rs [r] s
    _ = serve rs s ++ serve [r] State.reset := by rw [serve_eq_of_any_state [r] s State.reset]

end Sys2Proof.Proofs.Hazards
end

section
/-! PROOFS. Fixed words of the spec's vectors, 95_test_vectors.md sections 2.1 and 2.2. They are instances of
one fact: the wires of a number that fits decode, at any unit, to that unit's operation on the number. -/

namespace Sys2Proof.Proofs.Vectors

open Sys2Proof Sys2Proof.Machine
open Sys2Proof.Proofs.Interface (decode_of_word)
open Sys2Proof.Proofs.Decoding (wordOfWires_wiresOfNat)

/-- The wires of a number below 2^64 decode to the unit's operation on that number as an address. -/
theorem decode_wiresOfNat (u : HwUnit) {w : Nat} (hw : w < 2 ^ 64) :
    decode u (wiresOfNat 64 w) = .ok (decodeWord u (BitVec.ofNat 64 w)) :=
  decode_of_word u (wordOfWires_wiresOfNat hw)

/-- Settles O8: each of the five numbers fits in 64 wires, and its unit performs the operation named. -/
theorem sampleWordsDecode : Obligations.SampleWordsDecode := by
  refine ⟨?v12, ?x1, ?x8, ?x15, ?x29⟩
  case v12 => exact decode_wiresOfNat .addressDecomposer (by decide)
  case x1 => exact decode_wiresOfNat (.pageTableIndexExtractor .l1) (by decide)
  case x8 => exact decode_wiresOfNat (.pageTableIndexExtractor .l2) (by decide)
  case x15 => exact decode_wiresOfNat (.pageTableIndexExtractor .l3) (by decide)
  case x29 => exact decode_wiresOfNat (.pageTableIndexExtractor .l4) (by decide)

end Sys2Proof.Proofs.Vectors
end
